-- ==== Sys2Proof/Word.lean ====
section
/-! DEFINITION. The value types of USART-CFG: bits, bytes, command and result words, the configuration
record, the fault codes, received frames, and the moves of the four agents. -/

namespace Sys2Proof

/-- One bit of a register field (00_scope.md R17). -/
abbrev Bit := Bool

/-- Eight bits: the contents of UDR or of a register view. -/
abbrev Byte := BitVec 8

/-- A command word (30_encoding.md R91). -/
abbrev CmdWord := BitVec 64

/-- A result word (30_encoding.md R113). -/
abbrev ResultWord := BitVec 16

/-- The configuration record, INIT's operand (30_encoding.md R93). Every enumeration field is a raw
4-bit code: a code outside the field's variants is legal (R102). -/
structure ConfigRecord where
  baud   : BitVec 32
  mode   : BitVec 4
  duplex : BitVec 4
  size   : BitVec 4
  parity : BitVec 4
  stop   : BitVec 4
  pol    : BitVec 4
  irq    : BitVec 4
  deriving DecidableEq, Repr

/-- The fault codes of 60_exceptions.md R235. -/
inductive FaultCode where
  /-- The opcode is 0x0 or 0x8..0xF (30_encoding.md R108). -/
  | illegalOpcode
  /-- A reserved bit of the word is 1 (30_encoding.md R107). -/
  | reservedNonzero
  /-- INIT with `BAUD = 0` (40_configuration.md R134). -/
  | baudZero
  deriving DecidableEq, Repr

/-- One received frame, as the receive buffer holds it (10_state.md R50). -/
structure RxEntry where
  data8 : Byte
  bit8  : Bit
  fe    : Bit
  pe    : Bit
  deriving DecidableEq, Repr, Inhabited

/-- One atomic step of one agent (00_scope.md R8, R21). The draws of the spec stand as arguments: the
received frame of LINE_RX_DELIVER (44_line_side.md R219) and the URSEL bit of reset
(70_reset_and_hazards.md R265). -/
inductive Move where
  /-- Host: issue one command word (70_reset_and_hazards.md R279, first row). -/
  | issue (w : CmdWord)
  /-- Host: begin the expansion of `UTXS text` (R279, second row). -/
  | issueText (text : List Byte)
  /-- Host: issue the next word of the expansion it has begun (R279, second row). -/
  | issueNext
  /-- Host: collect the result (R279, third row). -/
  | collect
  /-- Host: snapshot the registers, which has no side effect (R279, fourth row). -/
  | snapshot
  /-- Host: assert reset, with the URSEL bit that is drawn (R265, R266). -/
  | reset (ursel : Bit)
  /-- Sequencer: execute the command in flight (00_scope.md R8). -/
  | sequencer
  /-- Line-TX: LINE_TX_LOAD (44_line_side.md R217). -/
  | txLoad
  /-- Line-TX: LINE_TX_SHIFT (44_line_side.md R218). -/
  | txShift
  /-- Line-RX: LINE_RX_DELIVER with the drawn frame (44_line_side.md R219). -/
  | rxDeliver (e : RxEntry)
  /-- Line-RX: LINE_RX_OVERRUN (44_line_side.md R220). -/
  | rxOverrun
  deriving DecidableEq, Repr, Inhabited

end Sys2Proof
end

