-- ==== Sys2Proof/Syntax.lean ====
section
/-! DEFINITION. The commands of the opcode map (30_encoding.md R106) and the pseudo-instruction UTXS
(R117), one constructor for each row of the opcode table. -/

namespace Sys2Proof

inductive Instr where
  /-- UINIT, command INIT (40_configuration.md R130). -/
  | uinit (cfg : ConfigRecord)
  /-- UTX, command TX_BYTE (41_transmit.md R171). -/
  | utx (data : Byte)
  /-- UTX9, command TX_WORD9 (41_transmit.md R174). -/
  | utx9 (word : BitVec 16)
  /-- URX, command RX_BYTE (42_receive.md R186). -/
  | urx
  /-- URX9, command RX_WORD9 (42_receive.md R188). -/
  | urx9
  /-- URXE, command RX_CHECKED (42_receive.md R191). -/
  | urxe
  /-- UDIS, command DISABLE (43_disable.md R205). -/
  | udis
  /-- UTXS, the pseudo-instruction that expands to UTX words (30_encoding.md R117). `text` holds the
  bytes of the string; the literal's own terminator may be left out. -/
  | utxs (text : List Byte)
  deriving DecidableEq, Repr

end Sys2Proof
end

