-- ==== Sys2Proof/WellFormed.lean ====
section
/-! DEFINITION. Which instructions are commands of the port. The operand types already bound every
field (30_encoding.md R92), so one check is left: whether the instruction has an opcode. -/

namespace Sys2Proof

/-- Well-formed as a command in flight: one of the seven commands of the opcode map (30_encoding.md
R106). UTXS has no opcode, so it is never in flight; the host expands it (R117). -/
def Instr.wf : Instr → Bool
  | .uinit _ | .utx _ | .utx9 _ | .urx | .urx9 | .urxe | .udis => true
  | .utxs _ => false

/-- A transmit command, which holds while UDRE = 0 (41_transmit.md R170). -/
def Instr.transmits : Instr → Bool
  | .utx _ | .utx9 _ => true
  | .uinit _ | .urx | .urx9 | .urxe | .udis | .utxs _ => false

/-- A receive command, which holds while RXC = 0 (42_receive.md R185). -/
def Instr.receives : Instr → Bool
  | .urx | .urx9 | .urxe => true
  | .uinit _ | .utx _ | .utx9 _ | .udis | .utxs _ => false

end Sys2Proof
end

