-- ==== Sys2Proof/Decode.lean ====
section
/-! DEFINITION. The decoder, total on every 64-bit word and rejecting by name (30_encoding.md R91, R92,
R106 to R109), and the encoder written from the same tables. -/

namespace Sys2Proof

/-- What decoding a word gives: a command, or the fault it raises (30_encoding.md R109, R110). -/
inductive Decoded where
  | legal (i : Instr)
  | illegal (code : FaultCode)
  deriving DecidableEq, Repr

/-- The unsigned field of `len` bits that starts at bit `lo` (30_encoding.md R92). -/
def CmdWord.field (w : CmdWord) (lo len : Nat) : BitVec len := w.extractLsb' lo len

/-- The configuration record packed in a word (30_encoding.md R91, R93). -/
def CmdWord.configRecord (w : CmdWord) : ConfigRecord where
  baud   := CmdWord.field w 32 32
  mode   := CmdWord.field w 4 4
  duplex := CmdWord.field w 8 4
  size   := CmdWord.field w 12 4
  parity := CmdWord.field w 16 4
  stop   := CmdWord.field w 20 4
  pol    := CmdWord.field w 24 4
  irq    := CmdWord.field w 28 4

/-- A row of the opcode map: the bits that must match, what they must be, and the command. -/
structure OpRow where
  mask    : CmdWord
  pattern : CmdWord
  command : Instr

/-- The row of the opcode map with opcode `op`, its command applied to the fields of `w`
(30_encoding.md R103 to R106). -/
def opcodeRow (op : BitVec 4) (w : CmdWord) : Option OpRow :=
  match op.toNat with
  | 1 => some ⟨0x000000000000000F, 0x0000000000000001, .uinit (CmdWord.configRecord w)⟩
  | 2 => some ⟨0xFFFFFFFFFFFF00FF, 0x0000000000000002, .utx (CmdWord.field w 8 8)⟩
  | 3 => some ⟨0xFFFFFFFF0000FFFF, 0x0000000000000003, .utx9 (CmdWord.field w 16 16)⟩
  | 4 => some ⟨0xFFFFFFFFFFFFFFFF, 0x0000000000000004, .urx⟩
  | 5 => some ⟨0xFFFFFFFFFFFFFFFF, 0x0000000000000005, .urx9⟩
  | 6 => some ⟨0xFFFFFFFFFFFFFFFF, 0x0000000000000006, .urxe⟩
  | 7 => some ⟨0xFFFFFFFFFFFFFFFF, 0x0000000000000007, .udis⟩
  | _ => none

/-- Decoding a command word (30_encoding.md R109): the opcode is checked before the reserved bits. -/
def decode (w : CmdWord) : Decoded :=
  match opcodeRow (CmdWord.field w 0 4) w with
  | none => .illegal .illegalOpcode
  | some row =>
    if w &&& row.mask = row.pattern then .legal row.command else .illegal .reservedNonzero

/-- INIT's word: the fields of 30_encoding.md R91, from bit 63 down to bit 0. -/
def initWord (c : ConfigRecord) : CmdWord :=
  c.baud ++ c.irq ++ c.pol ++ c.stop ++ c.parity ++ c.size ++ c.duplex ++ c.mode ++ (0x1 : BitVec 4)

/-- TX_BYTE's word (30_encoding.md R103). -/
def utxWord (d : Byte) : CmdWord := (0 : BitVec 48) ++ d ++ (0x02 : BitVec 8)

/-- TX_WORD9's word (30_encoding.md R104). -/
def utx9Word (v : BitVec 16) : CmdWord := (0 : BitVec 32) ++ v ++ (0x0003 : BitVec 16)

/-- The bytes UTXS transmits: those before the first NUL (30_encoding.md R117). -/
def textBytes (text : List Byte) : List Byte := text.takeWhile (· != 0)

/-- The words of an instruction, in the order they are issued: one word for a command, and one UTX word
for each transmitted byte for UTXS (30_encoding.md R106, R117). -/
def encode : Instr → List CmdWord
  | .uinit cfg => [initWord cfg]
  | .utx d     => [utxWord d]
  | .utx9 v    => [utx9Word v]
  | .urx       => [0x0000000000000004]
  | .urx9      => [0x0000000000000005]
  | .urxe      => [0x0000000000000006]
  | .udis      => [0x0000000000000007]
  | .utxs text => (textBytes text).map utxWord

/-- The instruction the decoder reads from a word whose bits are `w`. -/
def decodeTableWord (nbits w : Nat) : Option Instr :=
  match decode (BitVec.ofNat 64 (w % 2 ^ nbits)) with
  | .legal i => some i
  | .illegal _ => none

/-- A word as bytes, lowest address first: little-endian (20_memory.md R75). -/
def CmdWord.toBytes (w : CmdWord) : List Byte :=
  (List.range 8).map fun k => CmdWord.field w (8 * k) 8

/-- The word that eight little-endian bytes spell; none for another number of bytes (R75, R111). -/
def CmdWord.ofBytes : List Byte → Option CmdWord
  | [b0, b1, b2, b3, b4, b5, b6, b7] => some (b7 ++ b6 ++ b5 ++ b4 ++ b3 ++ b2 ++ b1 ++ b0)
  | _ => none

/-- The decoder on bytes: none unless there are exactly the eight bytes of one word. -/
def decodeBytes (bytes : List Byte) : Option Decoded := (CmdWord.ofBytes bytes).map decode

end Sys2Proof
end

