-- ==== Sys2Proof/Config.lean ====
section
/-! DEFINITION. What an implementation fixes and what the spec leaves open (00_scope.md R9 to R14). A
parameter the spec calls OPEN, and every free value, is a constant without a body: no proof can see it. -/

namespace Sys2Proof

/-- The two readings of TX_WORD9's ninth-bit write (00_scope.md R13). -/
inductive Tx9Update where
  | assign
  | orOnly
  deriving DecidableEq, Repr, Inhabited

namespace Config

/-- One less than `F_CLK`, so that `fClk` is positive by its form (00_scope.md R9, OPEN; log 3). -/
opaque fClkPred : Nat

/-- `F_CLK` in hertz, a positive integer (00_scope.md R9). -/
def fClk : Nat := fClkPred + 1

/-- `UBRR_BITS`, the width of the baud divisor register (00_scope.md R10, which takes 12; log 14). -/
abbrev ubrrBits : Nat := 12

/-- `RX_DEPTH`, how many frames the receive buffer holds (00_scope.md R12, which takes 2; log 14). -/
def rxDepth : Nat := 2

/-- `ubrr_overflow`: the divisor register's value for a divisor that is negative or too wide. It is
uninterpreted and depends on the divisor alone (00_scope.md R11; log 4). -/
opaque ubrrOverflow : Int → BitVec ubrrBits

/-- `tx9_update` (00_scope.md R13, OPEN; log 5). -/
opaque tx9Update : Tx9Update

/-- `rx_flush_on_disable` (00_scope.md R14, OPEN; log 6). -/
opaque rxFlushOnDisable : Bool

/-- Free value: URSEL after power-on, which 10_state.md R60 draws (log 7). -/
opaque urselAtReset : Bit

/-- Free value: the `n`-th drawn value of the FE, PE and RXB8 views of an empty receive buffer, in bits
2, 1 and 0 (10_state.md R56; log 8). -/
opaque emptyFlags : Nat → BitVec 3

/-- Free value: the agent's move drawn `n`-th, once the state lists no further move; every interleaving
is admitted (00_scope.md R8; log 1). -/
opaque freeMove : Nat → Move

end Config
end Sys2Proof
end

