-- ==== Sys2Proof/Machine/State.lean ====
section
/-! DEFINITION. The state of USART-CFG (10_state.md R30) as plain data, the reasons a step can stop,
and the state after reset (R60). -/

namespace Sys2Proof.Machine

/-- A frame handed to the line, with the format snapshot taken at its load (10_state.md R49). -/
structure TxFrame where
  value9 : BitVec 9
  ucsz   : BitVec 3
  upm    : BitVec 2
  usbs   : Bit
  umsel  : Bit
  ucpol  : Bit
  u2x    : Bit
  ubrr   : BitVec Config.ubrrBits
  deriving DecidableEq, Repr

/-- The sequencer state, which takes the program counter's place (10_state.md R32, R54). -/
inductive Seq where
  | idle
  | busy (cmd : Instr)
  | faulted (code : FaultCode) (word : CmdWord)
  deriving DecidableEq, Repr

structure State where
  -- stored control fields (10_state.md R33, R37, R42, R44, R46)
  u2x    : Bit
  mpcm   : Bit
  rxcie  : Bit
  txcie  : Bit
  udrie  : Bit
  rxen   : Bit
  txen   : Bit
  ucsz2  : Bit
  txb8   : Bit
  ursel  : Bit
  umsel  : Bit
  upm    : BitVec 2
  usbs   : Bit
  ucsz   : BitVec 2
  ucpol  : Bit
  ubrr   : BitVec Config.ubrrBits
  -- stored status bits (R36, R51)
  txc    : Bit
  dor    : Bit
  -- hidden state (R48 to R54); the receive buffer is oldest first
  txBuf   : Option (Bit × Byte)
  txShift : Option TxFrame
  rxFifo  : List RxEntry
  txTrace : List TxFrame
  seq     : Seq
  result  : Option ResultWord
  -- the model's own: what the FE, PE and RXB8 views read while `rxFifo = []` (R56; log 8)
  emptyFe   : Bit
  emptyPe   : Bit
  emptyRxb8 : Bit
  -- the model's own: the host's side and the order of the agents' moves (logs 1, 9, 10)
  hostQueue : List CmdWord
  collected : List ResultWord
  script    : List Move
  draws     : Nat
  deriving DecidableEq, Repr

/-- Why the machine stops. The spec's own faults are no stop: they latch `Seq.faulted`
(60_exceptions.md R236) and the line agents go on (44_line_side.md R224). -/
inductive Fault where
  /-- Raised by the sequencer's move when what is in flight has no opcode. Safe: the port accepts
  decoded command words only (30_encoding.md R90), so no run reaches it (log 17). -/
  | noCommandInFlight
  deriving DecidableEq, Repr

/-- Why a step has no meaning. -/
inductive Refusal where
  /-- Raised by `exec` for an instruction that has no meaning yet. Safe: it claims nothing. No arm
  raises it now. -/
  | notModelled (mnemonic : String)
  deriving DecidableEq, Repr

/-- The reset state with URSEL drawn as `u` (10_state.md R60, 70_reset_and_hazards.md R265). -/
def State.resetWith (u : Bit) : State where
  u2x    := false
  mpcm   := false
  rxcie  := false
  txcie  := false
  udrie  := false
  rxen   := false
  txen   := false
  ucsz2  := false
  txb8   := false
  ursel  := u
  umsel  := false
  upm    := 0b00
  usbs   := false
  ucsz   := 0b11
  ucpol  := false
  ubrr   := 0
  txc    := false
  dor    := false
  txBuf   := none
  txShift := none
  rxFifo  := []
  txTrace := []
  seq     := .idle
  result  := none
  emptyFe   := false
  emptyPe   := false
  emptyRxb8 := false
  hostQueue := []
  collected := []
  script    := []
  draws     := 0

/-- The machine right after reset, with URSEL a free value (log 7). -/
def State.reset : State := State.resetWith Config.urselAtReset

end Sys2Proof.Machine
end

