-- ==== Sys2Proof/Machine/Operands.lean ====
section
/-! DEFINITION. What the operands of the commands stand for: the baud divisor (40_configuration.md R131
to R133), the field encodings (R141 to R147), the split of a 9-bit word (41_transmit.md R173) and the
composition of the result words (30_encoding.md R113). -/

namespace Sys2Proof.Machine

/-- The oversampling divisor (R131). -/
def oversampling (mode : BitVec 4) : Nat := if mode = 2 then 8 else 16

/-- The baud divisor in unbounded integers; `/` is the floor division of naturals (R132). -/
def baudDivisor (clock os baud : Nat) : Int := ((clock / os / baud : Nat) : Int) - 1

/-- The value written to the baud register (R133). -/
def ubrrValue (div : Int) : BitVec Config.ubrrBits :=
  if 0 ≤ div ∧ div < 2 ^ Config.ubrrBits then BitVec.ofNat _ div.toNat else Config.ubrrOverflow div

/-- `(UMSEL, U2X)` (R141). -/
def modeBits (mode : BitVec 4) : Bit × Bit :=
  match mode.toNat with
  | 0 => (true, false)
  | 1 => (false, false)
  | 2 => (false, true)
  | _ => (false, false)

/-- `(TXEN, RXEN)` (R142). -/
def duplexBits (duplex : BitVec 4) : Bit × Bit :=
  match duplex.toNat with
  | 0 => (true, false)
  | 1 => (false, true)
  | 2 => (true, true)
  | _ => (true, false)

/-- `(UCSZ2, UCSZ1:UCSZ0)` (R143). -/
def sizeBits (size : BitVec 4) : Bit × BitVec 2 :=
  match size.toNat with
  | 0 => (false, 0b00)
  | 1 => (false, 0b01)
  | 2 => (false, 0b10)
  | 3 => (false, 0b11)
  | 4 => (true, 0b11)
  | _ => (false, 0b11)

/-- `UPM1:UPM0` (R144). -/
def parityBits (parity : BitVec 4) : BitVec 2 :=
  match parity.toNat with
  | 0 => 0b00
  | 1 => 0b10
  | 2 => 0b11
  | _ => 0b00

/-- `USBS` (R145). -/
def stopBit (stop : BitVec 4) : Bit :=
  match stop.toNat with
  | 0 => false
  | 1 => true
  | _ => false

/-- `UCPOL` (R146). -/
def polBit (pol : BitVec 4) : Bit :=
  match pol.toNat with
  | 0 => true
  | 1 => false
  | _ => false

/-- `(RXCIE, TXCIE, UDRIE)` (R147). -/
def irqBits (irq : BitVec 4) : Bit × Bit × Bit :=
  match irq.toNat with
  | 0 => (false, false, false)
  | 1 => (true, false, false)
  | 2 => (false, true, false)
  | 3 => (false, false, true)
  | _ => (false, false, false)

/-- The ninth bit of TX_WORD9's operand; bits 15:9 are ignored (41_transmit.md R173). -/
def ninthBit (word : BitVec 16) : Bit := word.getLsbD 8

/-- The byte of TX_WORD9's operand (41_transmit.md R173). -/
def lowByte (word : BitVec 16) : Byte := word.extractLsb' 0 8

/-- What TX_WORD9 writes to TXB8, under each reading of `tx9_update` (00_scope.md R13). -/
def nextTxb8 (update : Tx9Update) (old b8 : Bit) : Bit :=
  match update with
  | .assign => b8
  | .orOnly => old || b8

/-- `{b8, d}`, a 9-bit value with the ninth bit above the byte (20_memory.md R75). -/
def nineBits (b8 : Bit) (d : Byte) : BitVec 9 := BitVec.ofBool b8 ++ d

/-- RX_BYTE's result word (30_encoding.md R113). -/
def byteResult (d : Byte) : ResultWord := d.setWidth 16

/-- RX_WORD9's result word: bits 15:9 are 0 (42_receive.md R188). -/
def wordResult (b8 : Bit) (d : Byte) : ResultWord := (nineBits b8 d).setWidth 16

/-- RX_CHECKED's result word: the detection code in bits 9:8 (30_encoding.md R113). -/
def checkedResult (code : BitVec 2) (d : Byte) : ResultWord := (0 : BitVec 6) ++ code ++ d

end Sys2Proof.Machine
end

