-- ==== Sys2Proof/Machine/Ops.lean ====
section
/-! DEFINITION. The named operations over the registers and buffers: the field writes of 00_scope.md
R19, the UDR side effects (20_memory.md R76, R77), the two holds, fault entry (60_exceptions.md R236)
and reset, the only return from a fault (R239). -/

namespace Sys2Proof.Machine

/-- What a meaning answers. -/
abbrev Answer := Host.Outcome State Fault Refusal

/-! ## Field writes: each changes the named field and nothing else (00_scope.md R19). A field write is
one update of the state inside one move of the sequencer, so no other agent's move can tear it
(20_memory.md R73, R86). There is no other read-modify-write command, and no reservation. -/

/-- `URSEL <- v` (40_configuration.md R137, R140). -/
def State.setUrsel (s : State) (v : Bit) : State := { s with ursel := v }

/-- `UBRR[UBRR_BITS-1:8] <- v[UBRR_BITS-1:8]` (40_configuration.md R138). -/
def State.setUbrrHigh (s : State) (v : BitVec Config.ubrrBits) : State :=
  { s with ubrr := (v &&& ~~~ 0xFF) ||| (s.ubrr &&& 0xFF) }

/-- `UBRR[7:0] <- v[7:0]` (40_configuration.md R139). -/
def State.setUbrrLow (s : State) (v : BitVec Config.ubrrBits) : State :=
  { s with ubrr := (s.ubrr &&& ~~~ 0xFF) ||| (v &&& 0xFF) }

/-- `(UMSEL, U2X) <- v` (40_configuration.md R141). -/
def State.setMode (s : State) (v : Bit × Bit) : State := { s with umsel := v.1, u2x := v.2 }

/-- `(TXEN, RXEN) <- v` (40_configuration.md R142, 43_disable.md R205). -/
def State.setDuplex (s : State) (v : Bit × Bit) : State := { s with txen := v.1, rxen := v.2 }

/-- `(UCSZ2, UCSZ1, UCSZ0) <- v` (40_configuration.md R143). -/
def State.setSize (s : State) (v : Bit × BitVec 2) : State := { s with ucsz2 := v.1, ucsz := v.2 }

/-- `(UPM1, UPM0) <- v` (40_configuration.md R144). -/
def State.setParity (s : State) (v : BitVec 2) : State := { s with upm := v }

/-- `USBS <- v` (40_configuration.md R145). -/
def State.setStop (s : State) (v : Bit) : State := { s with usbs := v }

/-- `UCPOL <- v` (40_configuration.md R146). -/
def State.setPol (s : State) (v : Bit) : State := { s with ucpol := v }

/-- `(RXCIE, TXCIE, UDRIE) <- v` (40_configuration.md R147). -/
def State.setIrq (s : State) (v : Bit × Bit × Bit) : State :=
  { s with rxcie := v.1, txcie := v.2.1, udrie := v.2.2 }

/-- `TXB8 <- v` (41_transmit.md R174). -/
def State.setTxb8 (s : State) (v : Bit) : State := { s with txb8 := v }

/-- `TXC <- v` (44_line_side.md R218). -/
def State.setTxc (s : State) (v : Bit) : State := { s with txc := v }

/-- `DOR <- v` (20_memory.md R77, 44_line_side.md R220). -/
def State.setDor (s : State) (v : Bit) : State := { s with dor := v }

/-! ## Hidden state -/

/-- `tx_buf <- v` (10_state.md R48). -/
def State.setTxBuf (s : State) (v : Option (Bit × Byte)) : State := { s with txBuf := v }

/-- `tx_shift <- v` (10_state.md R49). -/
def State.setTxShift (s : State) (v : Option TxFrame) : State := { s with txShift := v }

/-- `tx_trace <- v` (10_state.md R52). -/
def State.setTxTrace (s : State) (v : List TxFrame) : State := { s with txTrace := v }

/-- `rx_fifo <- v` (10_state.md R50), the views of an empty buffer left as they are. -/
def State.setRxFifo (s : State) (v : List RxEntry) : State := { s with rxFifo := v }

/-- `seq <- v` (10_state.md R32). -/
def State.setSeq (s : State) (v : Seq) : State := { s with seq := v }

/-- `result <- v` (10_state.md R53). -/
def State.setResult (s : State) (v : Option ResultWord) : State := { s with result := v }

/-- The words the host is committed to issue next (log 9). -/
def State.setHostQueue (s : State) (v : List CmdWord) : State := { s with hostQueue := v }

/-- The results the host has collected (log 10). -/
def State.setCollected (s : State) (v : List ResultWord) : State := { s with collected := v }

/-- Draw what FE, PE and RXB8 read while the receive buffer is empty (10_state.md R56; log 8). -/
def State.redrawEmptyView (s : State) : State :=
  { s with
    emptyFe   := (Config.emptyFlags s.draws).getLsbD 2
    emptyPe   := (Config.emptyFlags s.draws).getLsbD 1
    emptyRxb8 := (Config.emptyFlags s.draws).getLsbD 0
    draws     := s.draws + 1 }

/-- `rx_fifo <- rest`; if this empties the buffer, FE, PE and RXB8 become unspecified (R56). -/
def State.replaceRx (s : State) (rest : List RxEntry) : State :=
  match s.rxFifo, rest with
  | _ :: _, [] => (s.setRxFifo []).redrawEmptyView
  | _, _ => s.setRxFifo rest

/-! ## The data register (20_memory.md R76, R77) -/

/-- `UDR_write(d)`: the byte goes to the transmit buffer with the current TXB8 latched beside it. -/
def udrWrite (d : Byte) (s : State) : State := s.setTxBuf (some (s.txb8, d))

/-- `UDR_read()`: the oldest frame and the state without it, DOR cleared; none while the buffer is
empty, where the spec has no read. -/
def udrRead (s : State) : Option (RxEntry × State) :=
  match s.rxFifo with
  | [] => none
  | h :: rest => some (h, (s.setDor false).replaceRx rest)

/-! ## The ends of a command -/

/-- The command completes: `seq <- Idle` (10_state.md R32). -/
def complete (s : State) : State := s.setSeq .idle

/-- `raise Fault(code, w)` (60_exceptions.md R236): the latch, and nothing else. -/
def raiseFault (code : FaultCode) (w : CmdWord) (s : State) : State := s.setSeq (.faulted code w)

/-- `hold until UDRE = 1` and then `act`, one atomic step (41_transmit.md R170). While it holds, the
sequencer changes nothing. -/
def holdUntilUdre (act : State → State) (s : State) : Answer :=
  match s.txBuf with
  | some _ => .next s
  | none => .next (complete (act s))

/-- A receive command (42_receive.md R185, R187): hold until RXC = 1, sample the flags in the state
before the read, read UDR, and deliver the result word, one atomic step. -/
def receive (resultOf : State → RxEntry → ResultWord) (s : State) : Answer :=
  match udrRead s with
  | none => .next s
  | some (h, t) => .next (complete (t.setResult (some (resultOf s h))))

/-- The receive buffer's part of clearing RXEN (40_configuration.md R148, 43_disable.md R206), with
`rx_flush_on_disable` as an argument. -/
def flushIfDisabled (flush : Bool) (rxenBefore : Bit) (s : State) : State :=
  if rxenBefore && !s.rxen && flush then s.replaceRx [] else s

/-- The reset input (70_reset_and_hazards.md R265, R266) with its URSEL draw: every component takes its
reset value and the command in flight is abandoned. What the host has collected and the order of the
agents' moves are not the block's, and stay (log 10). -/
def resetInput (u : Bit) (s : State) : State :=
  { State.resetWith u with collected := s.collected, script := s.script, draws := s.draws }

end Sys2Proof.Machine
end

