-- ==== Sys2Proof/Machine/Configure.lean ====
section
/-! DEFINITION. The configuration command INIT (40_configuration.md). -/

namespace Sys2Proof.Machine

/-- The value INIT writes to the baud register for a clock (R131 to R133). -/
def initUbrr (clock : Nat) (cfg : ConfigRecord) : BitVec Config.ubrrBits :=
  ubrrValue (baudDivisor clock (oversampling cfg.mode) cfg.baud.toNat)

/-- The micro-sequence S1 to S11 of INIT, in its order (R136), for a clock. -/
def initFields (clock : Nat) (cfg : ConfigRecord) (s : State) : State :=
  let s := s.setUrsel false
  let s := s.setUbrrHigh (initUbrr clock cfg)
  let s := s.setUbrrLow (initUbrr clock cfg)
  let s := s.setUrsel false
  let s := s.setMode (modeBits cfg.mode)
  let s := s.setDuplex (duplexBits cfg.duplex)
  let s := s.setSize (sizeBits cfg.size)
  let s := s.setParity (parityBits cfg.parity)
  let s := s.setStop (stopBit cfg.stop)
  let s := s.setPol (polBit cfg.pol)
  s.setIrq (irqBits cfg.irq)

/-- INIT (R130) for a clock and a value of `rx_flush_on_disable`: BAUD_ZERO before any write (R134),
else the field writes, the receive flush (R148) and completion, one atomic step (R151). -/
def initWith (clock : Nat) (flush : Bool) (cfg : ConfigRecord) (s : State) : Answer :=
  if cfg.baud = 0 then .next (raiseFault .baudZero (initWord cfg) s)
  else .next (complete (flushIfDisabled flush s.rxen (initFields clock cfg s)))

/-- UINIT, command INIT (R130), under the parameters of the implementation. -/
def execUinit (cfg : ConfigRecord) (s : State) : Answer :=
  initWith Config.fClk Config.rxFlushOnDisable cfg s

end Sys2Proof.Machine
end

