-- ==== Sys2Proof/Machine/Control.lean ====
section
/-! DEFINITION. The control command DISABLE (43_disable.md). -/

namespace Sys2Proof.Machine

/-- DISABLE (R205, R206) for a value of `rx_flush_on_disable`, one atomic step. -/
def disableWith (flush : Bool) (s : State) : Answer :=
  .next (complete (flushIfDisabled flush s.rxen (s.setDuplex (false, false))))

/-- UDIS, command DISABLE (R205). -/
def execUdis (s : State) : Answer := disableWith Config.rxFlushOnDisable s

end Sys2Proof.Machine
end

