-- ==== Sys2Proof/Machine/Flags.lean ====
section
/-! DEFINITION. The flags that are views (10_state.md R55 to R57), the classification of a received
frame (42_receive.md R189) and the interrupt request outputs (60_exceptions.md R243). -/

namespace Sys2Proof.Machine

/-- RXC, receive complete (10_state.md R55). -/
def State.rxc (s : State) : Bit := !s.rxFifo.isEmpty

/-- UDRE, data register empty (10_state.md R57). -/
def State.udre (s : State) : Bit := s.txBuf.isNone

/-- FE of the oldest unread frame; unspecified while the buffer is empty (10_state.md R56). -/
def State.fe (s : State) : Bit :=
  match s.rxFifo with
  | [] => s.emptyFe
  | h :: _ => h.fe

/-- PE of the oldest unread frame; unspecified while the buffer is empty (10_state.md R56). -/
def State.pe (s : State) : Bit :=
  match s.rxFifo with
  | [] => s.emptyPe
  | h :: _ => h.pe

/-- RXB8, the ninth bit of the oldest unread frame; unspecified while the buffer is empty (R56). -/
def State.rxb8 (s : State) : Bit :=
  match s.rxFifo with
  | [] => s.emptyRxb8
  | h :: _ => h.bit8

/-- The outcome RX_CHECKED reports (42_receive.md R190). -/
inductive Detection where
  | correct
  | frameError
  | dataOverflow
  | parityError
  deriving DecidableEq, Repr

/-- First match wins: frame error, then overflow, then parity error (42_receive.md R189). -/
def classify (fe dor pe : Bit) : Detection :=
  if fe = false ∧ dor = false ∧ pe = false then .correct
  else if fe = true then .frameError
  else if dor = true then .dataOverflow
  else .parityError

/-- The detection code (30_encoding.md R114). -/
def detectionCode : Detection → BitVec 2
  | .correct => 0
  | .frameError => 1
  | .dataOverflow => 2
  | .parityError => 3

/-- The fault code's number (60_exceptions.md R235). -/
def faultNumber : FaultCode → Nat
  | .illegalOpcode => 1
  | .reservedNonzero => 2
  | .baudZero => 3

/-- IRQ_RXC, a level (60_exceptions.md R243). -/
def State.irqRxc (s : State) : Bit := s.rxcie && s.rxc

/-- IRQ_TXC, a level (60_exceptions.md R243). -/
def State.irqTxc (s : State) : Bit := s.txcie && s.txc

/-- IRQ_UDRE, a level (60_exceptions.md R243). -/
def State.irqUdre (s : State) : Bit := s.udrie && s.udre

end Sys2Proof.Machine
end

