-- ==== Sys2Proof/Machine/Receive.lean ====
section
/-! DEFINITION. The receive commands RX_BYTE, RX_WORD9 and RX_CHECKED (42_receive.md). Each samples the
flags and the ninth bit in the state before the data register is read (R187). -/

namespace Sys2Proof.Machine

/-- URX, command RX_BYTE (R186): error flags are neither checked nor reported. -/
def execUrx (s : State) : Answer := receive (fun _ h => byteResult h.data8) s

/-- URX9, command RX_WORD9 (R188): RXB8 is sampled first. -/
def execUrx9 (s : State) : Answer := receive (fun s h => wordResult s.rxb8 h.data8) s

/-- URXE, command RX_CHECKED (R191): the outcome is classified first, then the head is drained. -/
def execUrxe (s : State) : Answer :=
  receive (fun s h => checkedResult (detectionCode (classify s.fe s.dor s.pe)) h.data8) s

end Sys2Proof.Machine
end

