-- ==== Sys2Proof/Machine/Transmit.lean ====
section
/-! DEFINITION. The transmit commands TX_BYTE and TX_WORD9, and the pseudo-instruction UTXS
(41_transmit.md). -/

namespace Sys2Proof.Machine

/-- UTX, command TX_BYTE (R171): TXB8 is latched with the byte and not written. -/
def execUtx (data : Byte) (s : State) : Answer := holdUntilUdre (udrWrite data) s

/-- TX_WORD9 (R174) under one reading of `tx9_update`: TXB8 is written before UDR. -/
def txWord9 (update : Tx9Update) (word : BitVec 16) (s : State) : Answer :=
  holdUntilUdre
    (fun s => udrWrite (lowByte word) (s.setTxb8 (nextTxb8 update s.txb8 (ninthBit word)))) s

/-- UTX9, command TX_WORD9 (R174). -/
def execUtx9 (word : BitVec 16) (s : State) : Answer := txWord9 Config.tx9Update word s

/-- UTXS (30_encoding.md R117, R176): the host takes up the expansion as one unit, one UTX word for each
byte before the first NUL. Each word is then a full TX_BYTE command of its own (log 9). -/
def execUtxs (text : List Byte) (s : State) : Answer :=
  .next (complete (s.setHostQueue ((textBytes text).map utxWord ++ s.hostQueue)))

end Sys2Proof.Machine
end

