-- ==== Sys2Proof/Machine/Dispatch.lean ====
section
/-! DEFINITION. The meaning of each instruction: one arm per constructor of Instr. -/

namespace Sys2Proof.Machine

def exec (i : Instr) (s : State) : Host.Outcome State Fault Refusal :=
  match i with
  | .uinit cfg => Sys2Proof.Machine.execUinit cfg s
  | .utx data => Sys2Proof.Machine.execUtx data s
  | .utx9 word => Sys2Proof.Machine.execUtx9 word s
  | .urx => Sys2Proof.Machine.execUrx s
  | .urx9 => Sys2Proof.Machine.execUrx9 s
  | .urxe => Sys2Proof.Machine.execUrxe s
  | .udis => Sys2Proof.Machine.execUdis s
  | .utxs text => Sys2Proof.Machine.execUtxs text s

end Sys2Proof.Machine
end

