-- ==== Sys2Proof/Machine/Line.lean ====
section
/-! DEFINITION. The steps of the line-side agents (44_line_side.md). A step that is not enabled changes
nothing (log 2). No step reads or writes `seq`, so a latched fault does not stop them (R215, R224). -/

namespace Sys2Proof.Machine

/-- A frame with the format snapshot of the state (R216). -/
def frameOf (b8 : Bit) (d : Byte) (s : State) : TxFrame where
  value9 := nineBits b8 d
  ucsz   := BitVec.ofBool s.ucsz2 ++ s.ucsz
  upm    := s.upm
  usbs   := s.usbs
  umsel  := s.umsel
  ucpol  := s.ucpol
  u2x    := s.u2x
  ubrr   := s.ubrr

/-- LINE_TX_LOAD (R217), enabled whatever TXEN is. -/
def lineTxLoad (s : State) : State :=
  match s.txBuf, s.txShift with
  | some (b8, d), none => (s.setTxShift (some (frameOf b8 d s))).setTxBuf none
  | _, _ => s

/-- LINE_TX_SHIFT (R218): TXC is set when no further byte waits. -/
def lineTxShift (s : State) : State :=
  match s.txShift with
  | none => s
  | some f =>
    ((s.setTxTrace (s.txTrace ++ [f])).setTxShift none).setTxc (s.txc || s.txBuf.isNone)

/-- LINE_RX_DELIVER with its draw (R219, R221). -/
def lineRxDeliver (e : RxEntry) (s : State) : State :=
  if s.rxen = true ∧ s.rxFifo.length < Config.rxDepth then s.setRxFifo (s.rxFifo ++ [e]) else s

/-- LINE_RX_OVERRUN (R220): the arriving frame is lost. -/
def lineRxOverrun (s : State) : State :=
  if s.rxen = true ∧ s.rxFifo.length = Config.rxDepth then s.setDor true else s

end Sys2Proof.Machine
end

