-- ==== Sys2Proof/Machine/Moves.lean ====
section
/-! DEFINITION. The moves of the four agents (00_scope.md R8) and which of them comes next. A move whose
precondition fails does not exist in the spec; here it changes nothing (log 2). -/

namespace Sys2Proof.Machine

/-- The port accepts a word: it is decoded, and is then in flight or raises its decode fault
(30_encoding.md R90, R109). -/
def acceptWord (w : CmdWord) (s : State) : State :=
  match decode w with
  | .legal i => s.setSeq (.busy i)
  | .illegal code => raiseFault code w s

/-- Host: issue one word, while `seq = Idle` and no expansion is unfinished (70_reset_and_hazards.md
R279, first row). -/
def hostIssue (w : CmdWord) (s : State) : State :=
  if s.seq = .idle ∧ s.hostQueue = [] then acceptWord w s else s

/-- Host: take up `UTXS text`, under the same precondition (R279, second row). -/
def hostIssueText (text : List Byte) (s : State) : Answer :=
  if s.seq = .idle ∧ s.hostQueue = [] then exec (.utxs text) s else .next s

/-- Host: issue the next word of an expansion (R279, second row). -/
def hostIssueNext (s : State) : State :=
  match s.seq, s.hostQueue with
  | .idle, w :: rest => acceptWord w (s.setHostQueue rest)
  | _, _ => s

/-- Host: collect the result (R279, third row; 10_state.md R53). -/
def hostCollect (s : State) : State :=
  match s.result with
  | none => s
  | some r => (s.setCollected (s.collected ++ [r])).setResult none

/-- Sequencer: execute the command in flight; without one it has no step. -/
def sequencerStep (s : State) : Answer :=
  match s.seq with
  | .busy i => if i.wf then exec i s else .fault .noCommandInFlight
  | _ => .next s

/-- One agent's move. -/
def perform (m : Move) (s : State) : Answer :=
  match m with
  | .issue w => .next (hostIssue w s)
  | .issueText text => hostIssueText text s
  | .issueNext => .next (hostIssueNext s)
  | .collect => .next (hostCollect s)
  | .snapshot => .next s
  | .reset u => .next (resetInput u s)
  | .sequencer => sequencerStep s
  | .txLoad => .next (lineTxLoad s)
  | .txShift => .next (lineTxShift s)
  | .rxDeliver e => .next (lineRxDeliver e s)
  | .rxOverrun => .next (lineRxOverrun s)

/-- The move that comes next: the first of the script, or a free choice once it is used up, so that
every interleaving is admitted (00_scope.md R8; log 1). -/
def State.nextMove (s : State) : Move :=
  match s.script with
  | m :: _ => m
  | [] => Config.freeMove s.draws

/-- The state with its next move taken off the script, or drawn. -/
def State.advance (s : State) : State :=
  match s.script with
  | _ :: rest => { s with script := rest }
  | [] => { s with draws := s.draws + 1 }

/-- `s` with the command word `w` where the sequencer finds its next command: in flight if it decodes,
else on the host's side of the open port, and the move that takes it up placed first (log 13). -/
def placeWord (w : CmdWord) (s : State) : State :=
  match decode w with
  | .legal i => { s with seq := .busy i, script := .sequencer :: s.script }
  | .illegal _ => { s with seq := .idle, hostQueue := [], script := .issue w :: s.script }

end Sys2Proof.Machine
end

