-- ==== Sys2Proof/Machine/Step.lean ====
section
/-! DEFINITION. One step of the machine: the next agent's move. -/

namespace Sys2Proof.Machine

/-- One step: some agent makes one atomic move (00_scope.md R8, R21). -/
def step (s : State) : Host.Outcome State Fault Refusal := perform s.nextMove s.advance

/-- `s` with the command word whose bits are `w` placed so that the very next step runs it (log 13). -/
def State.withFetchWord (s : State) (nbits w : Nat) : State :=
  placeWord (BitVec.ofNat 64 (w % 2 ^ nbits)) s

end Sys2Proof.Machine
end

