-- ==== Sys2Proof/Machine/Assembler.lean ====
section
/-! DEFINITION. The spec's assembler (30_encoding.md R115 to R118): one line of bytes to the command
words it stands for, or none where the assembler refuses it. Points the rules leave open are in log 16. -/

namespace Sys2Proof.Machine

/-- The bytes of an ASCII text. -/
def ascii (text : String) : List Byte := text.toList.map fun c => BitVec.ofNat 8 c.toNat

/-- A space or a tab. -/
def isSpace (b : Byte) : Bool := b == 0x20 || b == 0x09

/-- A text without the white space at either end. -/
def trim (t : List Byte) : List Byte := ((t.dropWhile isSpace).reverse.dropWhile isSpace).reverse

/-- An upper-case letter as its lower-case letter; mnemonics are case-insensitive (R115). -/
def toLower (b : Byte) : Byte := if 0x41 ≤ b ∧ b ≤ 0x5A then b + 0x20 else b

/-- A line up to its comment: `;` starts a comment unless it stands inside a string (R115). -/
def stripComment (inString : Bool) : List Byte → List Byte
  | [] => []
  | 0x5C :: c :: rest => 0x5C :: c :: stripComment inString rest
  | b :: rest =>
    if b = 0x22 then b :: stripComment (!inString) rest
    else if b = 0x3B ∧ inString = false then []
    else b :: stripComment inString rest

/-- The value of a digit below `base`. -/
def digitValue (base : Nat) (b : Byte) : Option Nat :=
  let v :=
    if 0x30 ≤ b ∧ b ≤ 0x39 then some (b.toNat - 0x30)
    else if 0x61 ≤ toLower b ∧ toLower b ≤ 0x66 then some ((toLower b).toNat - 0x61 + 10)
    else none
  v.bind fun n => if n < base then some n else none

/-- The value of a run of digits, most significant first. -/
def digitsValue (base acc : Nat) : List Byte → Option Nat
  | [] => some acc
  | b :: rest => (digitValue base b).bind fun d => digitsValue base (acc * base + d) rest

/-- A number: decimal, or hex with `0x` (R115). -/
def parseNumber : List Byte → Option Nat
  | [] => none
  | 0x30 :: 0x78 :: d :: rest => digitsValue 16 0 (d :: rest)
  | d :: rest => digitsValue 10 0 (d :: rest)

/-- The text at each comma. -/
def splitCommas : List Byte → List (List Byte)
  | [] => [[]]
  | b :: rest =>
    match splitCommas rest with
    | [] => [[b]]
    | part :: parts => if b = 0x2C then [] :: part :: parts else (b :: part) :: parts

/-- The value of an operand written `key=value`. -/
def valueOf (key : String) (t : List Byte) : Option (List Byte) :=
  let start := ascii key ++ [0x3D]
  if t.take start.length = start then some (t.drop start.length) else none

/-- The code of an enumeration operand: one of its keywords, numbered in their order, or a raw code
`#n` with `n` in 0..15 (R116). -/
def parseCode (keywords : List String) (t : List Byte) : Option (BitVec 4) :=
  match t with
  | 0x23 :: digits =>
    (parseNumber digits).bind fun n => if n < 16 then some (BitVec.ofNat 4 n) else none
  | _ => ((keywords.map ascii).idxOf? t).map (BitVec.ofNat 4)

/-- UINIT's operands, all eight and in this order (R116). -/
def parseRecord (t : List Byte) : Option ConfigRecord :=
  match (splitCommas t).map trim with
  | [baud, mode, duplex, size, parity, stop, pol, irq] => do
    let rate ← (valueOf "baud" baud).bind parseNumber
    let mode ← (valueOf "mode" mode).bind (parseCode ["sync", "async", "async2x"])
    let duplex ← (valueOf "duplex" duplex).bind (parseCode ["tx", "rx", "txrx"])
    let size ← (valueOf "size" size).bind (parseCode ["5", "6", "7", "8", "9"])
    let parity ← (valueOf "parity" parity).bind (parseCode ["none", "even", "odd"])
    let stop ← (valueOf "stop" stop).bind (parseCode ["1", "2"])
    let pol ← (valueOf "pol" pol).bind (parseCode ["falling", "rising"])
    let irq ← (valueOf "irq" irq).bind (parseCode ["none", "rxc", "txc", "udre"])
    if rate < 2 ^ 32 then
      some ⟨BitVec.ofNat 32 rate, mode, duplex, size, parity, stop, pol, irq⟩
    else none
  | _ => none

/-- The bytes of a string literal after its opening quote, escapes resolved, and what follows its
closing quote (R117). -/
def parseString : List Byte → Option (List Byte × List Byte)
  | [] => none
  | 0x5C :: 0x30 :: rest => (parseString rest).map fun p => (0x00 :: p.1, p.2)
  | 0x5C :: 0x6E :: rest => (parseString rest).map fun p => (0x0A :: p.1, p.2)
  | 0x5C :: 0x72 :: rest => (parseString rest).map fun p => (0x0D :: p.1, p.2)
  | 0x5C :: 0x74 :: rest => (parseString rest).map fun p => (0x09 :: p.1, p.2)
  | 0x5C :: 0x5C :: rest => (parseString rest).map fun p => (0x5C :: p.1, p.2)
  | 0x5C :: 0x22 :: rest => (parseString rest).map fun p => (0x22 :: p.1, p.2)
  | 0x5C :: 0x78 :: hi :: lo :: rest =>
    (digitsValue 16 0 [hi, lo]).bind fun n =>
      (parseString rest).map fun p => (BitVec.ofNat 8 n :: p.1, p.2)
  | 0x5C :: _ => none
  | 0x22 :: rest => some ([], rest)
  | b :: rest => (parseString rest).map fun p => (b :: p.1, p.2)

/-- UTXS's operand: one string literal and nothing after it (R115, R117). -/
def parseText : List Byte → Option (List Byte)
  | 0x22 :: rest => (parseString rest).bind fun p => if p.2 = [] then some p.1 else none
  | _ => none

/-- A number below `bound` (R115). -/
def parseBelow (bound : Nat) (t : List Byte) : Option Nat :=
  (parseNumber t).bind fun n => if n < bound then some n else none

/-- The instruction with a mnemonic, in lower case, and an operand text (R115). -/
def parseInstr (mnemonic operand : List Byte) : Option Instr :=
  if mnemonic = ascii "uinit" then (parseRecord operand).map .uinit
  else if mnemonic = ascii "utx" then
    (parseBelow 0x100 operand).map fun n => .utx (BitVec.ofNat 8 n)
  else if mnemonic = ascii "utx9" then
    (parseBelow 0x10000 operand).map fun n => .utx9 (BitVec.ofNat 16 n)
  else if mnemonic = ascii "utxs" then (parseText operand).map .utxs
  else if operand ≠ [] then none
  else if mnemonic = ascii "urx" then some .urx
  else if mnemonic = ascii "urx9" then some .urx9
  else if mnemonic = ascii "urxe" then some .urxe
  else if mnemonic = ascii "udis" then some .udis
  else none

/-- The words one line stands for: none refused, an empty list for a blank line (R115 to R117). -/
def assembleLine (line : List Byte) : Option (List CmdWord) :=
  let t := trim (stripComment false line)
  if t = [] then some []
  else
    (parseInstr ((t.takeWhile (!isSpace ·)).map toLower) (trim (t.dropWhile (!isSpace ·)))).map encode

/-- The words of a program, line after line; refused if a line is. -/
def assemble : List (List Byte) → Option (List CmdWord)
  | [] => some []
  | line :: rest => (assembleLine line).bind fun ws => (assemble rest).map (ws ++ ·)

end Sys2Proof.Machine
end

