-- ==== Sys2Proof/Machine/Views.lean ====
section
/-! DEFINITION. What a snapshot shows: the 8-bit register views (10_state.md R58), the register map
(20_memory.md R71, informative), the shape of a frame on the wire (44_line_side.md R216) and the rate
the baud setting gives (60_exceptions.md R249). Nothing here changes the state (20_memory.md R78). -/

namespace Sys2Proof.Machine

/-- RegRead(UCSRA) (10_state.md R33, R58). -/
def State.ucsra (s : State) : Byte :=
  BitVec.ofBool s.rxc ++ BitVec.ofBool s.txc ++ BitVec.ofBool s.udre ++ BitVec.ofBool s.fe ++
    BitVec.ofBool s.dor ++ BitVec.ofBool s.pe ++ BitVec.ofBool s.u2x ++ BitVec.ofBool s.mpcm

/-- RegRead(UCSRB) (10_state.md R37, R58). -/
def State.ucsrb (s : State) : Byte :=
  BitVec.ofBool s.rxcie ++ BitVec.ofBool s.txcie ++ BitVec.ofBool s.udrie ++ BitVec.ofBool s.rxen ++
    BitVec.ofBool s.txen ++ BitVec.ofBool s.ucsz2 ++ BitVec.ofBool s.rxb8 ++ BitVec.ofBool s.txb8

/-- RegRead(UCSRC) (10_state.md R42, R58). -/
def State.ucsrc (s : State) : Byte :=
  BitVec.ofBool s.ursel ++ BitVec.ofBool s.umsel ++ s.upm ++ BitVec.ofBool s.usbs ++ s.ucsz ++
    BitVec.ofBool s.ucpol

/-- RegRead(UBRRH): bit 7 is the URSEL view, the reserved bits read 0 (10_state.md R46, R58). -/
def State.ubrrh (s : State) : Byte := BitVec.ofBool s.ursel ++ (s.ubrr >>> 8).setWidth 7

/-- RegRead(UBRRL) (10_state.md R46, R58). -/
def State.ubrrl (s : State) : Byte := s.ubrr.setWidth 8

/-- The registers of the map that have a read view without side effect (10_state.md R58). -/
inductive Reg where
  | ucsra
  | ucsrb
  | ucsrc
  | ubrrh
  | ubrrl
  deriving DecidableEq, Repr

/-- RegRead (00_scope.md R19). -/
def regRead (r : Reg) (s : State) : Byte :=
  match r with
  | .ucsra => s.ucsra
  | .ucsrb => s.ucsrb
  | .ucsrc => s.ucsrc
  | .ubrrh => s.ubrrh
  | .ubrrl => s.ubrrl

/-- The I/O address of a register; UBRRH and UCSRC share one (20_memory.md R71, R72; informative). -/
def ioAddress : Reg → Nat
  | .ubrrl => 0x09
  | .ucsrb => 0x0A
  | .ucsra => 0x0B
  | .ubrrh => 0x20
  | .ucsrc => 0x20

/-- The data-space address of a register (20_memory.md R71; informative). -/
def dataAddress (r : Reg) : Nat := ioAddress r + 0x20

/-- The I/O address of UDR, which has no view without side effect (20_memory.md R71; informative). -/
def udrIoAddress : Nat := 0x0C

/-- The data-space address of UDR (20_memory.md R71; informative). -/
def udrDataAddress : Nat := udrIoAddress + 0x20

/-- The stored control fields: what field writes write, and commands and reset alone (10_state.md R33,
R37, R42, R46; 20_memory.md R73, R86). -/
structure Controls where
  u2x   : Bit
  mpcm  : Bit
  rxcie : Bit
  txcie : Bit
  udrie : Bit
  rxen  : Bit
  txen  : Bit
  ucsz2 : Bit
  txb8  : Bit
  ursel : Bit
  umsel : Bit
  upm   : BitVec 2
  usbs  : Bit
  ucsz  : BitVec 2
  ucpol : Bit
  ubrr  : BitVec Config.ubrrBits
  deriving DecidableEq, Repr

/-- The control fields of a state. -/
def State.controls (s : State) : Controls where
  u2x   := s.u2x
  mpcm  := s.mpcm
  rxcie := s.rxcie
  txcie := s.txcie
  udrie := s.udrie
  rxen  := s.rxen
  txen  := s.txen
  ucsz2 := s.ucsz2
  txb8  := s.txb8
  ursel := s.ursel
  umsel := s.umsel
  upm   := s.upm
  usbs  := s.usbs
  ucsz  := s.ucsz
  ucpol := s.ucpol
  ubrr  := s.ubrr

/-- What the host gets back from a snapshot (70_reset_and_hazards.md R279). -/
structure Snapshot where
  ucsra   : Byte
  ucsrb   : Byte
  ucsrc   : Byte
  ubrrh   : Byte
  ubrrl   : Byte
  txTrace : List TxFrame
  seq     : Seq
  deriving DecidableEq, Repr

/-- The snapshot of a state. -/
def State.snapshot (s : State) : Snapshot where
  ucsra   := s.ucsra
  ucsrb   := s.ucsrb
  ucsrc   := s.ucsrc
  ubrrh   := s.ubrrh
  ubrrl   := s.ubrrl
  txTrace := s.txTrace
  seq     := s.seq

/-- How many data bits a frame carries on the wire; none for a reserved size (10_state.md R43,
44_line_side.md R216). -/
def TxFrame.dataBits (f : TxFrame) : Option Nat :=
  match f.ucsz.toNat with
  | 0 => some 5
  | 1 => some 6
  | 2 => some 7
  | 3 => some 8
  | 7 => some 9
  | _ => none

/-- The value of the data bits on the wire: the low `n` bits of `value9` (44_line_side.md R216). -/
def TxFrame.wireValue (f : TxFrame) : Option Nat := f.dataBits.map fun n => f.value9.toNat % 2 ^ n

/-- Whether the frame carries a parity bit, whose value is not modelled (44_line_side.md R216). -/
def TxFrame.hasParity (f : TxFrame) : Bool := f.upm != 0

/-- How many stop bits the frame carries (10_state.md R43, 44_line_side.md R216). -/
def TxFrame.stopBits (f : TxFrame) : Nat := if f.usbs then 2 else 1

/-- The divisor of the baud generator, as INIT set it (60_exceptions.md R249). -/
def State.oversampled (s : State) : Nat := if s.u2x then 8 else 16

/-- The rate the setting gives for a clock, in symbols per second (60_exceptions.md R249). -/
def State.baudRate (clock : Nat) (s : State) : Rat :=
  (clock : Rat) / ((s.oversampled * (s.ubrr.toNat + 1) : Nat) : Rat)

end Sys2Proof.Machine
end

