-- ==== Sys2Proof/Safety.lean ====
section
/-! DEFINITION. What claims about USART-CFG are stated in: the invariant of the block, the end of a run
and the launch premises (70_reset_and_hazards.md R280, R281), the stream of handed-over frames, and runs
with a chosen schedule, with the fairness of 44_line_side.md R222. -/

namespace Sys2Proof.Machine

/-! ## The invariant -/

/-- A character-size triple that INIT writes or reset leaves; 0b100..0b110 never arise (10_state.md
R61). -/
def legalSize (size : BitVec 3) : Prop := size ≠ 4 ∧ size ≠ 5 ∧ size ≠ 6

/-- Parity bits that INIT writes or reset leaves; 0b01 never arises (10_state.md R61). -/
def legalParity (upm : BitVec 2) : Prop := upm ≠ 1

/-- A frame whose format the block can have had. -/
def TxFrame.legal (f : TxFrame) : Prop := legalSize f.ucsz ∧ legalParity f.upm

/-- A latched fault names what its word really is (60_exceptions.md R235, R237). -/
def faultExplains (code : FaultCode) (w : CmdWord) : Prop :=
  match code with
  | .baudZero => ∃ cfg : ConfigRecord, decode w = .legal (.uinit cfg) ∧ cfg.baud = 0
  | code => decode w = .illegal code

/-- A result word of a receive command: bits 15:10 are 0 (30_encoding.md R113). -/
def legalResult (r : ResultWord) : Prop := r.toNat < 0x400

/-- What holds of every state of a run. -/
structure State.Inv (s : State) : Prop where
  /-- MPCM keeps its reset value 0 (10_state.md R35). -/
  mpcm : s.mpcm = false
  /-- The receive buffer holds at most RX_DEPTH frames (10_state.md R50). -/
  depth : s.rxFifo.length ≤ Config.rxDepth
  /-- The reserved sizes and the reserved parity never arise (10_state.md R61). -/
  size : legalSize (BitVec.ofBool s.ucsz2 ++ s.ucsz)
  parity : legalParity s.upm
  /-- At most one interrupt-enable bit is 1 (10_state.md R38). -/
  oneIrq : (s.rxcie && s.txcie) = false ∧ (s.rxcie && s.udrie) = false ∧ (s.txcie && s.udrie) = false
  /-- U2X is 0 in synchronous mode (40_configuration.md R141). -/
  speed : (s.umsel && s.u2x) = false
  /-- Frames carry legal formats (44_line_side.md R216). -/
  shift : ∀ f, s.txShift = some f → f.legal
  trace : ∀ f ∈ s.txTrace, f.legal
  /-- What is in flight is a command (10_state.md R32, 30_encoding.md R106). -/
  inFlight : ∀ i, s.seq = .busy i → i.wf = true
  /-- A latched fault is one of its word (60_exceptions.md R237). -/
  fault : ∀ c w, s.seq = .faulted c w → faultExplains c w
  /-- Result words have bits 15:10 clear (30_encoding.md R113). -/
  result : ∀ r, s.result = some r → legalResult r
  collected : ∀ r ∈ s.collected, legalResult r
  /-- The host is committed to UTX words only (30_encoding.md R117). -/
  queue : ∀ w ∈ s.hostQueue, ∃ d, decode w = .legal (.utx d)

/-! ## The end of a run (70_reset_and_hazards.md R280, 60_exceptions.md R236, R255) -/

/-- The words a move of the script stands for, if the host makes it. -/
def moveWords : Move → List CmdWord
  | .issue w => [w]
  | .issueText text => encode (.utxs text)
  | .issueNext | .collect | .snapshot | .reset _ | .sequencer | .txLoad | .txShift | .rxDeliver _
  | .rxOverrun => []

/-- The words the host has still to issue: the rest of an expansion, and those of the script. -/
def State.unissued (s : State) : List CmdWord := s.hostQueue ++ s.script.flatMap moveWords

/-- The port is open and every byte handed over is in the trace. -/
def State.settled (s : State) : Prop := s.seq = .idle ∧ s.txBuf = none ∧ s.txShift = none

/-- A run of the machine under a script has ended: no word of it is left to issue, and it is settled.
`HasEnded` says so of a run against its host program. -/
def State.ended (s : State) : Prop := s.unissued = [] ∧ s.settled

/-- A run has failed: the sequencer is faulted. -/
def State.failed (s : State) : Prop := ∃ c w, s.seq = .faulted c w

/-- A transmit command holds. -/
def State.holdsTx (s : State) : Prop :=
  (∃ i, s.seq = .busy i ∧ i.transmits = true) ∧ s.udre = false

/-- A receive command holds. -/
def State.holdsRx (s : State) : Prop :=
  (∃ i, s.seq = .busy i ∧ i.receives = true) ∧ s.rxc = false

/-! ## Launch premises (70_reset_and_hazards.md R274, R281) -/

/-- What a claim states of the state it starts from: that it is the state after reset, or, for a later
state, its transmit buffer, shift register, receive buffer and DOR (R281). -/
inductive Launch where
  | afterReset
  | stated (txBuf : Option (Bit × Byte)) (txShift : Option TxFrame) (rxFifo : List RxEntry) (dor : Bit)
  deriving DecidableEq, Repr

/-- `CleanLaunch` (R281): the state of R265 with any URSEL, or a state with the port open, no result
waiting and the buffers and DOR as stated. -/
def State.cleanLaunch (launch : Launch) (s : State) : Prop :=
  match launch with
  | .afterReset => ∃ u, resetInput u s = s
  | .stated txBuf txShift rxFifo dor =>
    s.seq = .idle ∧ s.result = none ∧ s.txBuf = txBuf ∧ s.txShift = txShift ∧ s.rxFifo = rxFifo ∧
      s.dor = dor

/-- The lines are quiet: no frame is in the transmit buffer or the shift register (R274). -/
def State.quietDuringInit (s : State) : Prop := s.txBuf = none ∧ s.txShift = none

/-! ## The frames handed over -/

/-- The 9-bit values handed to the hardware, oldest first: in the trace, in the shift register, in the
buffer (41_transmit.md R172). -/
def State.handedOver (s : State) : List (BitVec 9) :=
  s.txTrace.map TxFrame.value9 ++ s.txShift.toList.map TxFrame.value9 ++
    s.txBuf.toList.map fun p => nineBits p.1 p.2

/-- The byte a word of an expansion transmits. -/
def wordBytes (w : CmdWord) : List Byte :=
  match decode w with
  | .legal (.utx d) => [d]
  | _ => []

/-- The byte a TX_BYTE in flight still has to hand over. -/
def Seq.bytes : Seq → List Byte
  | .busy (.utx d) => [d]
  | _ => []

/-- Every byte of a transmission by TX_BYTE commands, oldest first: handed over, in flight, and in the
words the host is committed to (41_transmit.md R176). -/
def State.plannedBytes (s : State) : List Byte :=
  s.handedOver.map (BitVec.setWidth 8) ++ s.seq.bytes ++ s.hostQueue.flatMap wordBytes

/-! ## Runs under a chosen schedule -/

/-- `states` is the run whose `n`-th move is `moves n`: every interleaving is some `moves`
(00_scope.md R8). -/
def IsRun (moves : Nat → Move) (states : Nat → State) : Prop :=
  ∀ n, perform (moves n) (states n) = .next (states (n + 1))

/-- LINE_TX_LOAD is enabled (44_line_side.md R217). -/
def State.loadEnabled (s : State) : Prop := s.txBuf ≠ none ∧ s.txShift = none

/-- LINE_TX_SHIFT is enabled (44_line_side.md R218). -/
def State.shiftEnabled (s : State) : Prop := s.txShift ≠ none

/-- Weak fairness of Line-TX while TXEN = 1 (44_line_side.md R222): a step that stays enabled from some
point on, TXEN staying 1, is taken at or after that point. -/
def FairTx (moves : Nat → Move) (states : Nat → State) : Prop :=
  (∀ n, (∀ k, n ≤ k → (states k).txen = true ∧ (states k).loadEnabled) →
    ∃ k, n ≤ k ∧ moves k = .txLoad) ∧
  (∀ n, (∀ k, n ≤ k → (states k).txen = true ∧ (states k).shiftEnabled) →
    ∃ k, n ≤ k ∧ moves k = .txShift)

/-- `QuietDuringInit` of a run (70_reset_and_hazards.md R274): the lines are quiet whenever INIT executes.
INIT is one step, so no frame can arrive during it (40_configuration.md R151). -/
def QuietDuringInit (moves : Nat → Move) (states : Nat → State) : Prop :=
  ∀ n cfg, moves n = .sequencer → (states n).seq = .busy (.uinit cfg) → (states n).quietDuringInit

/-- The premise on Line-RX a claim of receive termination takes: a frame is delivered at or after `n`
(44_line_side.md R223). -/
def FrameArrives (moves : Nat → Move) (n : Nat) : Prop := ∃ k e, n ≤ k ∧ moves k = .rxDeliver e

/-! ## Runs of a host program (70_reset_and_hazards.md R280) -/

/-- The words the host issues by a move: none where the port does not let it (R279). -/
def wordsIssued (m : Move) (s : State) : List CmdWord :=
  match m with
  | .issue w => if s.seq = .idle ∧ s.hostQueue = [] then [w] else []
  | .issueNext => if s.seq = .idle then s.hostQueue.take 1 else []
  | .issueText _ | .collect | .snapshot | .reset _ | .sequencer | .txLoad | .txShift | .rxDeliver _
  | .rxOverrun => []

/-- The words the host has issued in the first `n` moves of a run, in order. -/
def issuedBefore (moves : Nat → Move) (states : Nat → State) : Nat → List CmdWord
  | 0 => []
  | n + 1 => issuedBefore moves states n ++ wordsIssued (moves n) (states n)

/-- A run of the host program `program`, a finite list of command words: the host issues its words, in
order, and no others. -/
def IsRunOf (program : List CmdWord) (moves : Nat → Move) (states : Nat → State) : Prop :=
  IsRun moves states ∧ ∀ n, issuedBefore moves states n <+: program

/-- The run has failed by its `n`-th state: it has reached a fault (60_exceptions.md R236). -/
def HasFailed (states : Nat → State) (n : Nat) : Prop := ∃ k, k ≤ n ∧ (states k).failed

/-- The run of the program has ended at its `n`-th state: every word is issued, the machine is settled,
and the run has not failed. -/
def HasEnded (program : List CmdWord) (moves : Nat → Move) (states : Nat → State) (n : Nat) : Prop :=
  issuedBefore moves states n = program ∧ (states n).hostQueue = [] ∧ (states n).settled ∧
    ¬ HasFailed states n

/-- The run has hung at its `n`-th state: one command holds for ever (60_exceptions.md R255). -/
def HasHung (states : Nat → State) (n : Nat) : Prop :=
  ∀ k, n ≤ k → ((states k).holdsTx ∨ (states k).holdsRx) ∧ (states k).seq = (states n).seq

end Sys2Proof.Machine
end

