-- ==== Sys2Proof/Certificates/Slice0/Obligations.lean ====
section
/-! DEFINITION. The statements about USART-CFG for the provers, taken from the numbered rules of spec/. -/

open Sys2Proof Sys2Proof.Machine

/-! ## Encoding -/

/-- Every command, with every operand value, is read back from its word (30_encoding.md R91, R106). -/
def Obligations.DecodeReadsBackEveryCommand : Prop :=
  ∀ i : Instr, i.wf = true → ∃ w, encode i = [w] ∧ decode w = .legal i

/-- A legal word spells one command, whose word it is: the decoder drops no bit of a legal word and is
injective on them (30_encoding.md R112). -/
def Obligations.EveryLegalWordIsTheWordOfItsCommand : Prop :=
  (∀ w i, decode w = .legal i → i.wf = true ∧ encode i = [w]) ∧
    ∀ v w i, decode v = .legal i → decode w = .legal i → v = w

/-- R92, on the words of each command: every field is the unsigned value of its bit range. -/
def Obligations.FieldsAreUnsignedBitRanges : Prop :=
  (∀ w : CmdWord, w.toNat % 16 = 1 → ∃ c : ConfigRecord, decode w = .legal (.uinit c) ∧
      c.mode.toNat = w.toNat / 2 ^ 4 % 2 ^ 4 ∧ c.duplex.toNat = w.toNat / 2 ^ 8 % 2 ^ 4 ∧
      c.size.toNat = w.toNat / 2 ^ 12 % 2 ^ 4 ∧ c.parity.toNat = w.toNat / 2 ^ 16 % 2 ^ 4 ∧
      c.stop.toNat = w.toNat / 2 ^ 20 % 2 ^ 4 ∧ c.pol.toNat = w.toNat / 2 ^ 24 % 2 ^ 4 ∧
      c.irq.toNat = w.toNat / 2 ^ 28 % 2 ^ 4 ∧ c.baud.toNat = w.toNat / 2 ^ 32) ∧
  (∀ w : CmdWord, w.toNat % 2 ^ 8 = 2 → w.toNat / 2 ^ 16 = 0 →
      ∃ d : Byte, decode w = .legal (.utx d) ∧ d.toNat = w.toNat / 2 ^ 8 % 2 ^ 8) ∧
  (∀ w : CmdWord, w.toNat % 2 ^ 16 = 3 → w.toNat / 2 ^ 32 = 0 →
      ∃ v : BitVec 16, decode w = .legal (.utx9 v) ∧ v.toNat = w.toNat / 2 ^ 16 % 2 ^ 16) ∧
  decode 4 = .legal .urx ∧ decode 5 = .legal .urx9 ∧ decode 6 = .legal .urxe ∧
  decode 7 = .legal .udis

/-- R108: the illegal opcodes, and no other word, spell no command for want of an opcode, and the port
raises ILLEGAL_OPCODE for them. -/
def Obligations.IllegalOpcodesRaiseTheirFault : Prop :=
  ∀ w : CmdWord,
    (decode w = .illegal .illegalOpcode ↔ w.toNat % 16 = 0 ∨ 8 ≤ w.toNat % 16) ∧
    ((w.toNat % 16 = 0 ∨ 8 ≤ w.toNat % 16) →
      ∀ s : State, s.seq = .idle → s.hostQueue = [] →
        perform (.issue w) s = .next { s with seq := .faulted .illegalOpcode w })

/-- R107: a word with a reserved bit set, and no other word of its opcode, raises RESERVED_NONZERO, and
it does not execute. -/
def Obligations.ReservedBitsRaiseTheirFault : Prop :=
  ∀ w : CmdWord,
    (decode w = .illegal .reservedNonzero ↔
      (w.toNat % 16 = 2 ∧ (w.toNat / 2 ^ 4 % 2 ^ 4 ≠ 0 ∨ w.toNat / 2 ^ 16 ≠ 0)) ∨
      (w.toNat % 16 = 3 ∧ (w.toNat / 2 ^ 4 % 2 ^ 12 ≠ 0 ∨ w.toNat / 2 ^ 32 ≠ 0)) ∨
      ((4 ≤ w.toNat % 16 ∧ w.toNat % 16 ≤ 7) ∧ w.toNat / 2 ^ 4 ≠ 0)) ∧
    (decode w = .illegal .reservedNonzero →
      ∀ s : State, s.seq = .idle → s.hostQueue = [] →
        perform (.issue w) s = .next { s with seq := .faulted .reservedNonzero w })

/-- R110: every word is a command, ILLEGAL_OPCODE or RESERVED_NONZERO. -/
def Obligations.EveryWordHasOneOfThreeReadings : Prop :=
  ∀ w : CmdWord, (∃ i : Instr, i.wf = true ∧ decode w = .legal i) ∨
    decode w = .illegal .illegalOpcode ∨ decode w = .illegal .reservedNonzero

/-- A few words of 95_test_vectors.md, section 7 and program P4, with what they spell. -/
def Obligations.WrittenOutWordsDecode : Prop :=
  decode 0x0000258001003011 = .legal (.uinit ⟨9600, 1, 0, 3, 0, 0, 1, 0⟩) ∧
  decode 0x00002580852379F1 = .legal (.uinit ⟨9600, 15, 9, 7, 3, 2, 5, 8⟩) ∧
  decode 0x000000000000FF02 = .legal (.utx 0xFF) ∧
  decode 0x0000000001A50003 = .legal (.utx9 0x1A5) ∧
  decode 0x0000000000000006 = .legal .urxe ∧
  decode 0x0000000000000007 = .legal .udis ∧
  decode 0x0000000000000000 = .illegal .illegalOpcode ∧
  decode 0xFFFFFFFFFFFFFFFF = .illegal .illegalOpcode ∧
  decode 0x0000000000000014 = .illegal .reservedNonzero ∧
  decode 0x0000000100A50003 = .illegal .reservedNonzero

/-- R117, R176: UTXS expands to one UTX word for each byte before the first NUL, in order; without a NUL,
for every byte; and the decoder reads those bytes back. -/
def Obligations.UtxsExpandsToTheBytesBeforeTheNul : Prop :=
  ∀ a b : List Byte, 0 ∉ a →
    (encode (.utxs (a ++ 0 :: b))).map decode = a.map (fun d => Decoded.legal (.utx d)) ∧
    (encode (.utxs a)).map decode = a.map (fun d => Decoded.legal (.utx d))

/-- R115: the assembler refuses a UTX operand above 0xFF and a UTX9 operand above 0xFFFF, and gives every
other operand its word. -/
def Obligations.AssemblerBoundsTransmitOperands : Prop :=
  ∀ (t : List Byte) (n : Nat), parseNumber t = some n →
    parseInstr (ascii "utx") t = (if n ≤ 0xFF then some (.utx (BitVec.ofNat 8 n)) else none) ∧
    parseInstr (ascii "utx9") t = (if n ≤ 0xFFFF then some (.utx9 (BitVec.ofNat 16 n)) else none)

/-! ## The port, the sequencer and faults -/

/-- A word that decodes is accepted, and the sequencer's next move is its meaning: what `step` adds to
`exec` is the move taken off the script. `withFetchWord` places a word so that the very next step runs it
(log 13). -/
def Obligations.StepRunsTheDecodedInstruction : Prop :=
  (∀ (s : State) (w : CmdWord) (i : Instr) (rest : List Move),
    decode w = .legal i → s.seq = .idle → s.hostQueue = [] →
    s.script = .issue w :: .sequencer :: rest →
      step s = .next { s with seq := .busy i, script := .sequencer :: rest } ∧
      step { s with seq := .busy i, script := .sequencer :: rest } =
        exec i { s with seq := .busy i, script := rest }) ∧
  (∀ (s : State) (i : Instr) (rest : List Move),
    i.wf = true → s.seq = .busy i → s.script = .sequencer :: rest →
      step s = exec i { s with script := rest }) ∧
  ∀ (s : State) (w : CmdWord) (i : Instr), decode w = .legal i →
    step (s.withFetchWord 64 w.toNat) = exec i { s with seq := .busy i }

/-- R90, R236: while a command is in flight or a fault is latched the port accepts no word, and while an
expansion is unfinished none but the expansion's. That a move the spec does not have is one that changes
nothing is the model's choice (log 2), and so is the queue of an expansion (log 9). From a fault on, the run
issues no word until reset, so it does not end (R280). -/
def Obligations.PortAcceptsNothingUnlessIdle : Prop :=
  (∀ (s : State) (w : CmdWord) (text : List Byte), s.seq ≠ .idle →
    perform (.issue w) s = .next s ∧ perform (.issueText text) s = .next s ∧
      perform .issueNext s = .next s) ∧
  (∀ (s : State) (w : CmdWord) (text : List Byte), s.hostQueue ≠ [] →
    perform (.issue w) s = .next s ∧ perform (.issueText text) s = .next s) ∧
  ∀ (moves : Nat → Move) (states : Nat → State) (n : Nat), IsRun moves states →
    (states n).failed → (∀ k u, n ≤ k → moves k ≠ .reset u) →
      ∀ k, n ≤ k → (states k).failed ∧
        issuedBefore moves states k = issuedBefore moves states n

/-- R239: only reset leaves a latched fault, whichever agent moves. -/
def Obligations.FaultLatchHoldsUntilReset : Prop :=
  ∀ (s t : State) (c : FaultCode) (w : CmdWord), s.seq = .faulted c w → step s = .next t →
    (t.seq = .faulted c w ∧ ∀ u, s.nextMove ≠ .reset u) ∨
      ∃ u, s.nextMove = .reset u ∧ t.seq = .idle

/-- R236, R238: the step that raises a fault writes the latch and nothing else of the block; the host's
side loses at most the word it issued. -/
def Obligations.RaisingAFaultWritesOnlyTheLatch : Prop :=
  ∀ (s t : State) (c : FaultCode) (w : CmdWord), (∀ c' w', s.seq ≠ .faulted c' w') →
    step s = .next t → t.seq = .faulted c w →
      t = { s.advance with seq := .faulted c w, hostQueue := t.hostQueue } ∧
        (t.hostQueue = s.hostQueue ∨ s.hostQueue = w :: t.hostQueue)

/-- R235: the only fault at execution is INIT's BAUD_ZERO, with INIT's own word. -/
def Obligations.OnlyInitFaultsAtExecution : Prop :=
  ∀ (i : Instr) (s t : State) (c : FaultCode) (w : CmdWord), (∀ c' w', s.seq ≠ .faulted c' w') →
    exec i s = .next t → t.seq = .faulted c w →
      c = .baudZero ∧ ∃ cfg : ConfigRecord, i = .uinit cfg ∧ cfg.baud = 0 ∧ encode i = [w]

/-! ## INIT -/

/-- R141 to R147: INIT completes and writes the tables' bits, default arms included; URSEL is 0 (R44), and
the write of U2X touches no other bit of UCSRA: FE and PE move only if the buffer they describe does. -/
def Obligations.InitWritesTheFieldTables : Prop :=
  ∀ (cfg : ConfigRecord) (s : State), cfg.baud ≠ 0 →
    ∃ t, exec (.uinit cfg) s = .next t ∧ t.seq = .idle ∧ t.ursel = false ∧
      t.umsel = decide (cfg.mode = 0) ∧ t.u2x = decide (cfg.mode = 2) ∧
      t.txc = s.txc ∧ t.dor = s.dor ∧ t.mpcm = s.mpcm ∧ t.udre = s.udre ∧
      (t.rxFifo = s.rxFifo → t.rxc = s.rxc ∧ t.fe = s.fe ∧ t.pe = s.pe) ∧
      t.txen = decide (cfg.duplex ≠ 1) ∧ t.rxen = decide (cfg.duplex = 1 ∨ cfg.duplex = 2) ∧
      t.ucsz2 = decide (cfg.size = 4) ∧
      t.ucsz = (if cfg.size = 0 then 0 else if cfg.size = 1 then 1 else if cfg.size = 2 then 2 else 3) ∧
      t.upm = (if cfg.parity = 1 then 2 else if cfg.parity = 2 then 3 else 0) ∧
      t.usbs = decide (cfg.stop = 1) ∧ t.ucpol = decide (cfg.pol = 0) ∧
      t.rxcie = decide (cfg.irq = 1) ∧ t.txcie = decide (cfg.irq = 2) ∧
      t.udrie = decide (cfg.irq = 3)

/-- R131 to R133: INIT completes and writes the divisor, or `ubrr_overflow` of it where it is negative or
too wide for the register, whatever the clock is; and UINIT is INIT at the implementation's clock. -/
def Obligations.InitWritesTheBaudDivisor : Prop :=
  (∀ (clock : Nat) (flush : Bool) (cfg : ConfigRecord) (s : State), cfg.baud ≠ 0 →
    ∃ (t : State) (div : Int), initWith clock flush cfg s = .next t ∧
      div = ((clock / (if cfg.mode = 2 then 8 else 16) / cfg.baud.toNat : Nat) : Int) - 1 ∧
      (0 ≤ div ∧ div < 4096 → (t.ubrr.toNat : Int) = div) ∧
      (div < 0 ∨ 4096 ≤ div → t.ubrr = Config.ubrrOverflow div)) ∧
  ∀ (cfg : ConfigRecord) (s : State),
    exec (.uinit cfg) s = initWith Config.fClk Config.rxFlushOnDisable cfg s

/-- R148: what INIT does not own it leaves alone, but for the receive flush when RXEN falls. The last four
fields are the model's own views and count of draws, of which this says nothing (log 8). -/
def Obligations.InitPreservesWhatItDoesNotOwn : Prop :=
  ∀ (cfg : ConfigRecord) (s : State), cfg.baud ≠ 0 →
    ∃ t, exec (.uinit cfg) s = .next t ∧
      t = { s with
        ursel := t.ursel, ubrr := t.ubrr, umsel := t.umsel, u2x := t.u2x, txen := t.txen,
        rxen := t.rxen, ucsz2 := t.ucsz2, ucsz := t.ucsz, upm := t.upm, usbs := t.usbs,
        ucpol := t.ucpol, rxcie := t.rxcie, txcie := t.txcie, udrie := t.udrie, seq := .idle,
        rxFifo := if s.rxen = true ∧ t.rxen = false ∧ Config.rxFlushOnDisable = true then []
          else s.rxFifo,
        emptyFe := t.emptyFe, emptyPe := t.emptyPe, emptyRxb8 := t.emptyRxb8, draws := t.draws }

/-- R134: with baud rate 0 INIT raises BAUD_ZERO with its own word and writes nothing else. -/
def Obligations.InitWithBaudZeroFaults : Prop :=
  ∀ (cfg : ConfigRecord) (s : State) (w : CmdWord), cfg.baud = 0 → decode w = .legal (.uinit cfg) →
    exec (.uinit cfg) s = .next { s with seq := .faulted .baudZero w }

/-- R150: after INIT every owned field is a function of the record (and the clock) alone. -/
def Obligations.InitForgetsThePriorState : Prop :=
  ∀ (cfg : ConfigRecord) (s s' t t' : State), cfg.baud ≠ 0 →
    exec (.uinit cfg) s = .next t → exec (.uinit cfg) s' = .next t' →
      t.ursel = t'.ursel ∧ t.ubrr = t'.ubrr ∧ t.umsel = t'.umsel ∧ t.u2x = t'.u2x ∧
      t.txen = t'.txen ∧ t.rxen = t'.rxen ∧ t.ucsz2 = t'.ucsz2 ∧ t.ucsz = t'.ucsz ∧
      t.upm = t'.upm ∧ t.usbs = t'.usbs ∧ t.ucpol = t'.ucpol ∧ t.rxcie = t'.rxcie ∧
      t.txcie = t'.txcie ∧ t.udrie = t'.udrie

/-- R152: INIT run again with the same record, no other agent moving in between, changes nothing. -/
def Obligations.InitIsIdempotent : Prop :=
  ∀ (cfg : ConfigRecord) (s t : State), exec (.uinit cfg) s = .next t →
    exec (.uinit cfg) t = .next t

/-- The inference R135 of 40_configuration.md: with a divisor in range, the rate the setting gives is at
least the baud rate asked for and below `baud * (UBRR + 2) / (UBRR + 1)`; that is, the baud rate asked for
is above the rate of the next larger divisor. -/
def Obligations.InitRateBracketsTheBaudRate : Prop :=
  ∀ (clock : Nat) (flush : Bool) (cfg : ConfigRecord) (s t : State), cfg.baud ≠ 0 →
    0 ≤ baudDivisor clock (oversampling cfg.mode) cfg.baud.toNat →
    baudDivisor clock (oversampling cfg.mode) cfg.baud.toNat < 4096 →
    initWith clock flush cfg s = .next t →
      t.oversampled = oversampling cfg.mode ∧
      cfg.baud.toNat * (t.oversampled * (t.ubrr.toNat + 1)) ≤ clock ∧
      clock < cfg.baud.toNat * (t.oversampled * (t.ubrr.toNat + 2))

/-- R156: the scenario at a 16 MHz clock, launched clean from the state after reset (R281), whatever URSEL
was drawn and whatever `rx_flush_on_disable` is. -/
def Obligations.ScenarioAtSixteenMegahertz : Prop :=
  ∀ (s : State) (flush : Bool), s.cleanLaunch .afterReset → ∃ t,
    initWith 16000000 flush ⟨9600, 1, 0, 3, 0, 0, 1, 0⟩ s = .next t ∧
      t.ubrr = 103 ∧ t.ucsra = 0x20 ∧ t.ucsrb = 0x08 ∧ t.ucsrc = 0x06 ∧ t.ubrrh = 0x00 ∧
      t.ubrrl = 0x67 ∧ t.seq = .idle

/-- R153: the five sizes have five triples, and the default codes share the triple of 8 bits. -/
def Obligations.SizeTriplesAreDistinct : Prop :=
  (∀ a b : BitVec 4, a.toNat ≤ 4 → b.toNat ≤ 4 → sizeBits a = sizeBits b → a = b) ∧
    ∀ a : BitVec 4, 5 ≤ a.toNat → sizeBits a = sizeBits 3

/-- R138, R139: the two writes of the baud register change their own part and keep the other. -/
def Obligations.BaudRegisterPartsAreIndependent : Prop :=
  ∀ (s : State) (v : BitVec Config.ubrrBits),
    (s.setUbrrHigh v).ubrr.toNat / 256 = v.toNat / 256 ∧
    (s.setUbrrHigh v).ubrr.toNat % 256 = s.ubrr.toNat % 256 ∧
    (s.setUbrrLow v).ubrr.toNat / 256 = s.ubrr.toNat / 256 ∧
    (s.setUbrrLow v).ubrr.toNat % 256 = v.toNat % 256 ∧
    (s.setUbrrHigh v).ursel = s.ursel

/-! ## Transmit -/

/-- R171: with UDRE = 1, TX_BYTE hands over the byte with TXB8 latched beside it, completes, and changes
nothing else; with UDRE = 0 it holds. That executing it while it holds answers the same state, where R20 and
R170 give the sequencer no step, is the model's choice (log 2). -/
def Obligations.TxByteHandsOverItsByte : Prop :=
  ∀ (d : Byte) (s : State),
    (s.txBuf = none → exec (.utx d) s = .next { s with txBuf := some (s.txb8, d), seq := .idle }) ∧
    (s.txBuf ≠ none → exec (.utx d) s = .next s)

/-- R173, R174: with UDRE = 1, TX_WORD9 writes TXB8 by the reading of `tx9_update`, then hands over the
low byte with the new TXB8 latched, completes, and changes nothing else; with UDRE = 0 it holds. That
executing it while it holds answers the same state is the model's choice (log 2). The second half speaks of
each reading, whichever one the implementation takes. -/
def Obligations.TxWord9WritesTheNinthBitFirst : Prop :=
  (∀ (w : BitVec 16) (s : State),
    (s.txBuf = none → ∃ b8 : Bit, exec (.utx9 w) s =
        .next { s with txb8 := b8, txBuf := some (b8, BitVec.ofNat 8 (w.toNat % 256)), seq := .idle } ∧
      b8 = (if Config.tx9Update = .assign then decide (w.toNat / 256 % 2 = 1)
        else s.txb8 || decide (w.toNat / 256 % 2 = 1))) ∧
    (s.txBuf ≠ none → exec (.utx9 w) s = .next s)) ∧
  ∀ (update : Tx9Update) (w : BitVec 16) (s : State), s.txBuf = none →
    ∃ b8 : Bit, txWord9 update w s =
        .next { s with txb8 := b8, txBuf := some (b8, BitVec.ofNat 8 (w.toNat % 256)), seq := .idle } ∧
      b8 = (if update = .assign then decide (w.toNat / 256 % 2 = 1)
        else s.txb8 || decide (w.toNat / 256 % 2 = 1))

/-- R170: a transmit command holds while UDRE = 0: no move of any agent ends the hold but a load by Line-TX,
and reset (R266). That its execution then answers the same state, where the spec gives the sequencer no step,
is the model's choice (log 2), and so are the moves that are not enabled. -/
def Obligations.TransmitHoldsWhileTheBufferIsFull : Prop :=
  (∀ (s : State) (i : Instr), i.transmits = true → s.udre = false → exec i s = .next s) ∧
  ∀ (m : Move) (s t : State), s.holdsTx → m ≠ .txLoad → (∀ u, m ≠ .reset u) →
    perform m s = .next t → t.holdsTx ∧ t.seq = s.seq

/-- R112, R173: words that differ only in WORD16[15:9] behave the same. -/
def Obligations.TxWord9IgnoresBitsAboveTheNinth : Prop :=
  ∀ (v w : BitVec 16) (s : State), v.toNat % 512 = w.toNat % 512 →
    exec (.utx9 v) s = exec (.utx9 w) s

/-- R175: a byte in the transmit buffer keeps the ninth bit it was handed over with, until the load that
takes it into a frame; only reset drops it. -/
def Obligations.BufferedByteKeepsItsNinthBit : Prop :=
  ∀ (m : Move) (s t : State) (b8 : Bit) (d : Byte), s.txBuf = some (b8, d) → perform m s = .next t →
    (∀ u, m ≠ .reset u) →
      t.txBuf = some (b8, d) ∨
        (m = .txLoad ∧ t.txBuf = none ∧ ∃ f, t.txShift = some f ∧ f.value9 = nineBits b8 d)

/-- R117, R279: issuing UTXS commits the host to the words of the expansion, in order, before any word
it was committed to. What the host's queue is, is the model's (log 9). -/
def Obligations.UtxsCommitsTheHostToItsWords : Prop :=
  ∀ (a b : List Byte) (s : State), 0 ∉ a →
    exec (.utxs (a ++ 0 :: b)) s =
      .next { s with hostQueue := a.map utxWord ++ s.hostQueue, seq := .idle } ∧
    exec (.utxs a) s = .next { s with hostQueue := a.map utxWord ++ s.hostQueue, seq := .idle }

/-- The inference R176 on the plainest schedule: UTXS from an open port and an idle transmitter sends exactly
the bytes before the terminator, in order, each with the ninth bit TXB8, and changes nothing else but the
last frame's TXC. Each byte takes an issue, its execution, a load and a shift. If the rest of the script has
no word to issue, the run has then ended (R280). The script and the queue are the model's (logs 1, 9). -/
def Obligations.UtxsTransmitsItsBytesInOrder : Prop :=
  ∀ (a b : List Byte) (s : State) (rest : List Move), 0 ∉ a →
    s.seq = .idle → s.hostQueue = [] → s.txBuf = none → s.txShift = none →
    s.script = .issueText (a ++ 0 :: b) ::
      (a.flatMap (fun _ => [.issueNext, .sequencer, .txLoad, .txShift]) ++ rest) →
      ∃ t, Host.Core.run core (1 + 4 * a.length) s = .next t ∧
        t = { s with
          script := rest, txc := s.txc || !a.isEmpty,
          txTrace := s.txTrace ++ a.map fun d =>
            { value9 := nineBits s.txb8 d, ucsz := BitVec.ofBool s.ucsz2 ++ s.ucsz, upm := s.upm,
              usbs := s.usbs, umsel := s.umsel, ucpol := s.ucpol, u2x := s.u2x, ubrr := s.ubrr } } ∧
        (rest.flatMap moveWords = [] → t.ended)

/-- R176 under every schedule: while TX_BYTE commands carry out an expansion, no move of any agent but
reset, and but the issue of a further command once the expansion is used up, adds, drops or reorders a
byte; and no other command comes between the words. -/
def Obligations.ExpansionKeepsItsBytesUnderEverySchedule : Prop :=
  ∀ (m : Move) (s t : State), s.Inv → perform m s = .next t →
    (s.seq = .idle ∨ ∃ d, s.seq = .busy (.utx d)) →
    (∀ u, m ≠ .reset u) →
    (s.hostQueue ≠ [] ∨ ((∀ w, m ≠ .issue w) ∧ ∀ x, m ≠ .issueText x)) →
      t.plannedBytes = s.plannedBytes ∧ (t.seq = .idle ∨ ∃ d, t.seq = .busy (.utx d))

/-! ## Receive -/

/-- R186: with RXC = 1, RX_BYTE answers the head's byte, drains the head, clears DOR, completes, and
changes nothing else (of the last four fields, the model's own, this says nothing: log 8); with RXC = 0 it
holds. That executing it while it holds answers the same state, where R20 gives no step, is the model's
choice (log 2). -/
def Obligations.RxByteAnswersTheHead : Prop :=
  ∀ s : State,
    (∀ (h : RxEntry) (rest : List RxEntry), s.rxFifo = h :: rest →
      ∃ t, exec .urx s = .next t ∧
        t = { s with
          result := some (BitVec.ofNat 16 h.data8.toNat),
          rxFifo := rest, dor := false, seq := .idle,
          emptyFe := t.emptyFe, emptyPe := t.emptyPe, emptyRxb8 := t.emptyRxb8,
          draws := t.draws }) ∧
    (s.rxFifo = [] → exec .urx s = .next s)

/-- R188: RX_WORD9 answers the head's ninth bit above its byte, bits 15:9 clear, with the same effect
otherwise (log 8 as for RX_BYTE). That executing it while it holds answers the same state is the model's
choice (log 2). -/
def Obligations.RxWord9AnswersTheNinthBit : Prop :=
  ∀ s : State,
    (∀ (h : RxEntry) (rest : List RxEntry), s.rxFifo = h :: rest →
      ∃ t, exec .urx9 s = .next t ∧
        t = { s with
          result := some (BitVec.ofNat 16 (256 * h.bit8.toNat + h.data8.toNat)),
          rxFifo := rest, dor := false, seq := .idle,
          emptyFe := t.emptyFe, emptyPe := t.emptyPe, emptyRxb8 := t.emptyRxb8,
          draws := t.draws }) ∧
    (s.rxFifo = [] → exec .urx9 s = .next s)

/-- R191: RX_CHECKED answers the head's byte below the detection code, frame error before overflow before
parity error, with the flags as they were before the read, and drains the head whatever they are (log 8 as
for RX_BYTE). That executing it while it holds answers the same state is the model's choice (log 2). -/
def Obligations.RxCheckedReportsTheFirstError : Prop :=
  ∀ s : State,
    (∀ (h : RxEntry) (rest : List RxEntry), s.rxFifo = h :: rest →
      ∃ t, exec .urxe s = .next t ∧
        t = { s with
          result := some (BitVec.ofNat 16 (256 *
            (if h.fe = true then 1 else if s.dor = true then 2 else if h.pe = true then 3 else 0) +
              h.data8.toNat)),
          rxFifo := rest, dor := false, seq := .idle,
          emptyFe := t.emptyFe, emptyPe := t.emptyPe, emptyRxb8 := t.emptyRxb8,
          draws := t.draws }) ∧
    (s.rxFifo = [] → exec .urxe s = .next s)

/-- R185: a receive command holds while RXC = 0: no move of any agent ends the hold but a delivery by
Line-RX with RXEN = 1, and reset (R266). That its execution then answers the same state, where the spec gives
the sequencer no step, is the model's choice (log 2), and so are the moves that are not enabled, a delivery
with RXEN = 0 among them. -/
def Obligations.ReceiveHoldsWhileTheBufferIsEmpty : Prop :=
  (∀ (s : State) (i : Instr), i.receives = true → s.rxc = false → exec i s = .next s) ∧
  ∀ (m : Move) (s t : State), s.holdsRx → (s.rxen = false ∨ ∀ e, m ≠ .rxDeliver e) →
    (∀ u, m ≠ .reset u) → perform m s = .next t → t.holdsRx ∧ t.seq = s.seq

/-- R55, R56, R77: a receive command that leaves a frame waiting leaves RXC = 1, and FE, PE and RXB8 now
describe that frame. -/
def Obligations.FlagsMoveToTheNextFrame : Prop :=
  ∀ (i : Instr) (s t : State) (h g : RxEntry) (rest : List RxEntry), i.receives = true →
    s.rxFifo = h :: g :: rest → exec i s = .next t →
      t.rxc = true ∧ t.fe = g.fe ∧ t.pe = g.pe ∧ t.rxb8 = g.bit8 ∧ t.dor = false

/-- R192: the first of the three errors whose flag is set, and Correct only when none is. -/
def Obligations.ClassificationTakesTheFirstError : Prop :=
  ∀ fe dor pe : Bit,
    (classify fe dor pe = .correct ↔ fe = false ∧ dor = false ∧ pe = false) ∧
    (classify fe dor pe = .frameError ↔ fe = true) ∧
    (classify fe dor pe = .dataOverflow ↔ fe = false ∧ dor = true) ∧
    (classify fe dor pe = .parityError ↔ fe = false ∧ dor = false ∧ pe = true)

/-- The inference 42_receive.md draws as R194: what one move can do to the receive buffer:
nothing (unless a receive command executes on a buffer with a frame), one frame appended by the line, the
head taken by a receive command, or emptied by a flush of INIT or DISABLE, or by reset. -/
def Obligations.ReceiveBufferChangesOneFrameAtATime : Prop :=
  ∀ (m : Move) (s t : State), perform m s = .next t →
    (t.rxFifo = s.rxFifo ∧
      ¬ (s.rxFifo ≠ [] ∧ m = .sequencer ∧ ∃ i, s.seq = .busy i ∧ i.receives = true)) ∨
    (∃ e, m = .rxDeliver e ∧ s.rxen = true ∧ t.rxFifo = s.rxFifo ++ [e]) ∨
    (∃ i h, m = .sequencer ∧ s.seq = .busy i ∧ i.receives = true ∧
      s.rxFifo = h :: t.rxFifo) ∨
    (m = .sequencer ∧ ((∃ cfg, s.seq = .busy (.uinit cfg)) ∨ s.seq = .busy .udis) ∧
      s.rxen = true ∧ t.rxen = false ∧ Config.rxFlushOnDisable = true ∧ t.rxFifo = []) ∨
    ∃ u, m = .reset u ∧ t.rxFifo = []

/-- R223, R255, R280: with RXEN = 0 a receive command on an empty buffer holds on, whichever agent moves;
only reset ends it, and a run without one has hung. With RXEN staying 1, the hold lifts once a frame
arrives, the premise of R281 and R223. -/
def Obligations.ReceiveHoldWithReceiverOffIsForever : Prop :=
  (∀ (m : Move) (s t : State), s.holdsRx → s.rxen = false → (∀ u, m ≠ .reset u) →
    perform m s = .next t → t.holdsRx ∧ t.rxen = false ∧ t.seq = s.seq) ∧
  (∀ (moves : Nat → Move) (states : Nat → State) (n : Nat), IsRun moves states →
    (states n).holdsRx → (states n).rxen = false → (∀ k u, n ≤ k → moves k ≠ .reset u) →
      HasHung states n) ∧
  ∀ (moves : Nat → Move) (states : Nat → State) (n : Nat), IsRun moves states →
    (∀ k, n ≤ k → (states k).rxen = true) → FrameArrives moves n →
      ∃ k, n ≤ k ∧ (states k).rxc = true

/-! ## DISABLE -/

/-- R205, R206: DISABLE clears the two enables, flushes the receive buffer where `rx_flush_on_disable` says
so and RXEN was 1, completes, and changes nothing else (of the model's views of an empty buffer and its
count of draws this says nothing: log 8). -/
def Obligations.DisableClearsOnlyTheEnables : Prop :=
  ∀ s : State, ∃ t, exec .udis s = .next t ∧
    t = { s with
      txen := false, rxen := false, seq := .idle,
      rxFifo := if s.rxen = true ∧ Config.rxFlushOnDisable = true then [] else s.rxFifo,
      emptyFe := t.emptyFe, emptyPe := t.emptyPe, emptyRxb8 := t.emptyRxb8, draws := t.draws }

/-- The model's choice for the views R56 leaves unspecified (log 8): what FE, PE and RXB8 read of an empty
buffer stays as it is but when the buffer empties, or at reset. -/
def Obligations.EmptyViewsChangeOnlyAsTheBufferEmpties : Prop :=
  ∀ (m : Move) (s t : State), perform m s = .next t →
    (t.emptyFe = s.emptyFe ∧ t.emptyPe = s.emptyPe ∧ t.emptyRxb8 = s.emptyRxb8) ∨
    (m = .sequencer ∧ s.rxFifo ≠ [] ∧ t.rxFifo = []) ∨ ∃ u, m = .reset u

/-! ## The line side -/

/-- R217: LINE_TX_LOAD where it is enabled. That a load which is not enabled changes nothing, where the spec
has no such step, is the model's choice (log 2). -/
def Obligations.LineTxLoadTakesTheBufferedByte : Prop :=
  ∀ s : State,
    (∀ b8 d, s.txBuf = some (b8, d) → s.txShift = none →
      perform .txLoad s = .next { s with
        txBuf := none,
        txShift := some
          { value9 := nineBits b8 d, ucsz := BitVec.ofBool s.ucsz2 ++ s.ucsz, upm := s.upm,
            usbs := s.usbs, umsel := s.umsel, ucpol := s.ucpol, u2x := s.u2x, ubrr := s.ubrr } }) ∧
    (s.txBuf = none ∨ s.txShift ≠ none → perform .txLoad s = .next s)

/-- R218: LINE_TX_SHIFT where it is enabled. That a shift which is not enabled changes nothing, where the
spec has no such step, is the model's choice (log 2). -/
def Obligations.LineTxShiftFinishesTheFrame : Prop :=
  ∀ s : State,
    (∀ f, s.txShift = some f →
      perform .txShift s = .next { s with
        txTrace := s.txTrace ++ [f], txShift := none,
        txc := if s.txBuf = none then true else s.txc }) ∧
    (s.txShift = none → perform .txShift s = .next s)

/-- R219, R220: the two Line-RX steps where they are enabled. That outside its condition each changes
nothing, where the spec has no such step, is the model's choice (log 2). -/
def Obligations.LineRxDeliversOrOverruns : Prop :=
  ∀ (s : State) (e : RxEntry),
    (s.rxen = true → s.rxFifo.length < Config.rxDepth →
      perform (.rxDeliver e) s = .next { s with rxFifo := s.rxFifo ++ [e] }) ∧
    (s.rxen = false ∨ Config.rxDepth ≤ s.rxFifo.length → perform (.rxDeliver e) s = .next s) ∧
    (s.rxen = true → s.rxFifo.length = Config.rxDepth →
      perform .rxOverrun s = .next { s with dor := true }) ∧
    (s.rxen = false ∨ s.rxFifo.length ≠ Config.rxDepth → perform .rxOverrun s = .next s)

/-- R215, R224: no step of a line agent writes the sequencer state, the result or a control field,
whatever the sequencer state is. -/
def Obligations.LineAgentsKeepToTheLineSide : Prop :=
  ∀ (m : Move) (s t : State),
    (m = .txLoad ∨ m = .txShift ∨ (∃ e, m = .rxDeliver e) ∨ m = .rxOverrun) →
    perform m s = .next t →
      t = { s with
        txBuf := t.txBuf, txShift := t.txShift, txTrace := t.txTrace, txc := t.txc,
        rxFifo := t.rxFifo, dor := t.dor }

/-- R222: in a run that is fair to Line-TX, a transmit hold lifts if TXEN stays 1. -/
def Obligations.FairTransmitHoldsLift : Prop :=
  ∀ (moves : Nat → Move) (states : Nat → State), IsRun moves states → FairTx moves states →
    ∀ n, (states n).holdsTx → (∀ k, n ≤ k → (states k).txen = true) →
      ∃ k, n ≤ k ∧ (states k).udre = true

/-! ## Reset, the host and the views -/

/-- The inferences R60 and R281: the register views after reset, whatever URSEL was drawn (FE, PE and RXB8
reading 0 of the empty buffer is the model's, log 8); and from every state the reset input leaves a clean
launch with quiet lines. -/
def Obligations.ResetViewsAndLaunch : Prop :=
  (∀ u : Bit, (State.resetWith u).ucsra = 0x20 ∧ (State.resetWith u).ucsrb = 0x00 ∧
    (State.resetWith u).ubrrl = 0x00 ∧
    (State.resetWith u).ucsrc = (if u = true then 0x86 else 0x06) ∧
    (State.resetWith u).ubrrh = (if u = true then 0x80 else 0x00)) ∧
  State.reset.cleanLaunch .afterReset ∧
  ∀ (u : Bit) (s : State), ∃ t, perform (.reset u) s = .next t ∧ t.cleanLaunch .afterReset ∧
    t.cleanLaunch (.stated none none [] false) ∧ t.quietDuringInit

/-- R265: reset is possible in every state, and gives every component of the spec its reset value, URSEL
the one drawn; so does the power-on state. That every request output is then 0 is the spec's own inference
(70_reset_and_hazards.md, R267). Of the model's own fields (logs 1, 8, 9, 10) this says nothing. -/
def Obligations.ResetRestoresEveryComponent : Prop :=
  ∀ (s : State) (u : Bit), ∃ r, perform (.reset u) s = .next r ∧
    ∀ t, t = r ∨ t = State.resetWith u →
      t = { t with
        u2x := false, mpcm := false, rxcie := false, txcie := false, udrie := false, rxen := false,
        txen := false, ucsz2 := false, txb8 := false, ursel := u, umsel := false, upm := 0b00,
        usbs := false, ucsz := 0b11, ucpol := false, ubrr := 0, txc := false, dor := false,
        txBuf := none, txShift := none, rxFifo := [], txTrace := [], seq := .idle, result := none } ∧
      t.irqRxc = false ∧ t.irqTxc = false ∧ t.irqUdre = false

/-- R279, R53: collecting takes the result away and gives it to the host, whose record is the model's
(log 10); a snapshot changes nothing (log 20). That collecting with no result, a move the spec does not have,
changes nothing is the model's choice (log 2). -/
def Obligations.HostCollectsAndObserves : Prop :=
  ∀ s : State,
    (∀ r, s.result = some r →
      perform .collect s = .next { s with result := none, collected := s.collected ++ [r] }) ∧
    (s.result = none → perform .collect s = .next s) ∧
    perform .snapshot s = .next s

/-- R58: the bits of the five register views. -/
def Obligations.RegisterViewsHaveTheirLayout : Prop :=
  ∀ s : State,
    s.ucsra.toNat = 128 * s.rxc.toNat + 64 * s.txc.toNat + 32 * s.udre.toNat + 16 * s.fe.toNat +
      8 * s.dor.toNat + 4 * s.pe.toNat + 2 * s.u2x.toNat + s.mpcm.toNat ∧
    s.ucsrb.toNat = 128 * s.rxcie.toNat + 64 * s.txcie.toNat + 32 * s.udrie.toNat +
      16 * s.rxen.toNat + 8 * s.txen.toNat + 4 * s.ucsz2.toNat + 2 * s.rxb8.toNat + s.txb8.toNat ∧
    s.ucsrc.toNat = 128 * s.ursel.toNat + 64 * s.umsel.toNat + 16 * s.upm.toNat +
      8 * s.usbs.toNat + 2 * s.ucsz.toNat + s.ucpol.toNat ∧
    s.ubrrh.toNat = 128 * s.ursel.toNat + s.ubrr.toNat / 256 ∧
    s.ubrrl.toNat = s.ubrr.toNat % 256

/-- R243: the request outputs are levels of the state. -/
def Obligations.RequestOutputsAreEnableAndFlag : Prop :=
  ∀ s : State,
    (s.irqRxc = true ↔ s.rxcie = true ∧ s.rxFifo ≠ []) ∧
    (s.irqTxc = true ↔ s.txcie = true ∧ s.txc = true) ∧
    (s.irqUdre = true ↔ s.udrie = true ∧ s.txBuf = none)

/-! ## The whole machine -/

/-- Every step keeps the invariant of the block, from every state that meets it. -/
def Obligations.StepKeepsTheInvariant : Prop :=
  ∀ s t : State, s.Inv → step s = .next t → t.Inv

/-- Reset meets the invariant, whatever URSEL was drawn. -/
def Obligations.ResetMeetsTheInvariant : Prop :=
  State.reset.Inv ∧ ∀ u : Bit, (State.resetWith u).Inv

/-- In a state that meets the invariant the machine has a next state: no fault of the model and no
refusal. -/
def Obligations.StepAlwaysAnswersANextState : Prop :=
  ∀ s : State, s.Inv → ∃ t, step s = .next t

/-- R172: handed-over frames keep their order and none is dropped or invented: one move leaves the stream
as it is, or completes one transmit command and appends one value, or is reset. -/
def Obligations.HandedOverStreamGrowsInOrder : Prop :=
  ∀ (m : Move) (s t : State), perform m s = .next t →
    t.handedOver = s.handedOver ∨
    (m = .sequencer ∧ s.txBuf = none ∧ t.seq = .idle ∧
      ((∃ d, s.seq = .busy (.utx d) ∧ t.handedOver = s.handedOver ++ [nineBits s.txb8 d]) ∨
        ∃ w : BitVec 16, s.seq = .busy (.utx9 w) ∧
          t.handedOver = s.handedOver ++ [nineBits t.txb8 (BitVec.ofNat 8 (w.toNat % 256))])) ∨
    ∃ u, m = .reset u ∧ t.handedOver = []

/-- R52: LINE_TX_SHIFT appends its frame to the trace; no other move changes it but reset, which empties
it. -/
def Obligations.TraceOnlyGrows : Prop :=
  ∀ (m : Move) (s t : State), perform m s = .next t →
    (∀ f, m = .txShift → s.txShift = some f → t.txTrace = s.txTrace ++ [f]) ∧
    (m ≠ .txShift ∨ s.txShift = none → (∀ u, m ≠ .reset u) → t.txTrace = s.txTrace) ∧
    ∀ u, m = .reset u → t.txTrace = []

/-- R34, R35, R38, R39, R41, R44, R46: which command writes which control field; but for reset, no other
move of any agent writes it. And R73, R86: a field write is never torn, since the move that changes a
control field is the whole execution of a command, after which the port is open. -/
def Obligations.ControlFieldsHaveTheirWriters : Prop :=
  ∀ (m : Move) (s t : State), perform m s = .next t → (∀ u, m ≠ .reset u) →
    t.mpcm = s.mpcm ∧
    ((∀ cfg, ¬ (m = .sequencer ∧ s.seq = .busy (.uinit cfg))) →
      t.u2x = s.u2x ∧ t.rxcie = s.rxcie ∧ t.txcie = s.txcie ∧ t.udrie = s.udrie ∧
      t.ucsz2 = s.ucsz2 ∧ t.ursel = s.ursel ∧ t.umsel = s.umsel ∧ t.upm = s.upm ∧
      t.usbs = s.usbs ∧ t.ucsz = s.ucsz ∧ t.ucpol = s.ucpol ∧ t.ubrr = s.ubrr ∧
      (¬ (m = .sequencer ∧ s.seq = .busy .udis) → t.txen = s.txen ∧ t.rxen = s.rxen)) ∧
    ((∀ w, ¬ (m = .sequencer ∧ s.seq = .busy (.utx9 w))) → t.txb8 = s.txb8) ∧
    (t.controls ≠ s.controls →
      m = .sequencer ∧ t.seq = .idle ∧ ∃ i, s.seq = .busy i ∧ exec i s = .next t)

/-- R36: Line-TX sets TXC as it finishes a frame with no byte waiting; no other move changes it but reset,
which clears it. -/
def Obligations.TxcIsSetByTheLastFrameAndStays : Prop :=
  ∀ (m : Move) (s t : State), perform m s = .next t →
    (m = .txShift → s.txShift ≠ none → s.txBuf = none → t.txc = true) ∧
    (m ≠ .txShift ∨ s.txShift = none ∨ s.txBuf ≠ none → (∀ u, m ≠ .reset u) → t.txc = s.txc) ∧
    ∀ u, m = .reset u → t.txc = false

/-- R51: Line-RX sets DOR when a frame arrives at a full buffer, and a receive command's read clears it; no
other move changes it but reset, which clears it. -/
def Obligations.DorIsSetByOverrunAndClearedByARead : Prop :=
  ∀ (m : Move) (s t : State), perform m s = .next t →
    (m = .rxOverrun → s.rxen = true → s.rxFifo.length = Config.rxDepth → t.dor = true) ∧
    (∀ i, m = .sequencer → s.seq = .busy i → i.receives = true → s.rxFifo ≠ [] → t.dor = false) ∧
    (¬ (m = .rxOverrun ∧ s.rxen = true ∧ s.rxFifo.length = Config.rxDepth) →
      ¬ (m = .sequencer ∧ (∃ i, s.seq = .busy i ∧ i.receives = true) ∧ s.rxFifo ≠ []) →
      (∀ u, m ≠ .reset u) → t.dor = s.dor) ∧
    ∀ u, m = .reset u → t.dor = false
end

