-- ==== Sys2Proof/Laws/Decode.lean ====
section
/-! SUPPORT. The decoder and the encoder in the arithmetic of naturals: a word's fields, its words written
out, and when the masks of the opcode map match. -/

namespace Sys2Proof

/-- A field is a quotient and a remainder of the word. -/
theorem CmdWord.toNat_field (w : CmdWord) (lo len : Nat) :
    (CmdWord.field w lo len).toNat = w.toNat / 2 ^ lo % 2 ^ len := by
  simp [CmdWord.field, Nat.shiftRight_eq_div_pow]

theorem toNat_append_eq {m n : Nat} (x : BitVec m) (y : BitVec n) :
    (x ++ y).toNat = x.toNat * 2 ^ n + y.toNat := by
  rw [BitVec.toNat_append, ← Nat.shiftLeft_add_eq_or_of_lt y.isLt, Nat.shiftLeft_eq]

theorem initWord_toNat (c : ConfigRecord) :
    (initWord c).toNat = c.baud.toNat * 2 ^ 32 + c.irq.toNat * 2 ^ 28 + c.pol.toNat * 2 ^ 24 +
      c.stop.toNat * 2 ^ 20 + c.parity.toNat * 2 ^ 16 + c.size.toNat * 2 ^ 12 +
      c.duplex.toNat * 2 ^ 8 + c.mode.toNat * 2 ^ 4 + 1 := by
  have h : (1 : BitVec 4).toNat = 1 := rfl
  simp only [initWord, toNat_append_eq, h]
  omega

theorem utxWord_toNat (d : Byte) : (utxWord d).toNat = d.toNat * 2 ^ 8 + 2 := by
  have h : (0 : BitVec 48).toNat = 0 := rfl
  have h2 : (0x02 : BitVec 8).toNat = 2 := rfl
  simp only [utxWord, toNat_append_eq, h, h2]
  omega

theorem utx9Word_toNat (v : BitVec 16) : (utx9Word v).toNat = v.toNat * 2 ^ 16 + 3 := by
  have h : (0 : BitVec 32).toNat = 0 := rfl
  have h2 : (0x0003 : BitVec 16).toNat = 3 := rfl
  simp only [utx9Word, toNat_append_eq, h, h2]
  omega

/-- A low mask keeps the remainder. -/
theorem and_lowMask_toNat (w : CmdWord) (n : Nat) (hn : n ≤ 64) :
    (w &&& BitVec.ofNat 64 (2 ^ n - 1)).toNat = w.toNat % 2 ^ n := by
  have hp : 2 ^ n ≤ 2 ^ 64 := Nat.pow_le_pow_right (by omega) hn
  have hpos : 0 < 2 ^ n := Nat.two_pow_pos n
  rw [BitVec.toNat_and, BitVec.toNat_ofNat, Nat.mod_eq_of_lt (by omega), Nat.and_two_pow_sub_one_eq_mod]

/-- A mask that covers all bits but `n` of them from bit `lo` on matches a pattern below `2 ^ lo`
exactly when the bits above are 0 and the bits below are the pattern. -/
theorem and_holeMask (w mask : CmdWord) (lo n p : Nat) (hlo : lo + n ≤ 64) (hp : p < 2 ^ lo)
    (hm : ∀ i, i < 64 → mask.getLsbD i = (decide (i < lo) || decide (lo + n ≤ i))) :
    w &&& mask = BitVec.ofNat 64 p ↔ w.toNat % 2 ^ lo = p ∧ w.toNat / 2 ^ (lo + n) = 0 := by
  have hp64 : p < 2 ^ 64 := Nat.lt_of_lt_of_le hp (Nat.pow_le_pow_right (by omega) (by omega))
  constructor
  · intro h
    have hb : ∀ i, i < 64 → (w.getLsbD i && mask.getLsbD i) = p.testBit i := by
      intro i hi
      have := congrArg (fun v => BitVec.getLsbD v i) h
      rw [BitVec.getLsbD_and, BitVec.getLsbD_ofNat] at this
      simpa only [hi, decide_true, Bool.true_and] using this
    constructor
    · apply Nat.eq_of_testBit_eq
      intro i
      rw [Nat.testBit_mod_two_pow]
      by_cases hi : i < lo
      · have := hb i (by omega)
        rw [hm i (by omega)] at this
        simpa [hi, BitVec.testBit_toNat] using this
      · have : p.testBit i = false :=
          Nat.testBit_lt_two_pow (Nat.lt_of_lt_of_le hp (Nat.pow_le_pow_right (by omega) (by omega)))
        simp [hi, this]
    · apply Nat.eq_of_testBit_eq
      intro i
      rw [Nat.testBit_div_two_pow, Nat.zero_testBit]
      by_cases hi : i + (lo + n) < 64
      · have := hb _ hi
        rw [hm _ hi] at this
        have hpf : p.testBit (i + (lo + n)) = false :=
          Nat.testBit_lt_two_pow (Nat.lt_of_lt_of_le hp (Nat.pow_le_pow_right (by omega) (by omega)))
        simpa [hpf, BitVec.testBit_toNat, show lo + n ≤ i + (lo + n) by omega] using this
      · exact Nat.testBit_lt_two_pow
          (Nat.lt_of_lt_of_le w.isLt (Nat.pow_le_pow_right (by omega) (by omega)))
  · rintro ⟨h1, h2⟩
    apply BitVec.eq_of_getLsbD_eq
    intro i hi
    rw [BitVec.getLsbD_and, hm i hi, BitVec.getLsbD_ofNat, ← BitVec.testBit_toNat]
    by_cases hl : i < lo
    · have : p.testBit i = w.toNat.testBit i := by
        rw [← h1, Nat.testBit_mod_two_pow]; simp [hl]
      simp [hl, hi, this]
    · have hpf : p.testBit i = false :=
        Nat.testBit_lt_two_pow (Nat.lt_of_lt_of_le hp (Nat.pow_le_pow_right (by omega) (by omega)))
      by_cases hh : lo + n ≤ i
      · have : w.toNat.testBit i = false := by
          have := congrArg (fun v => Nat.testBit v (i - (lo + n))) h2
          simp only [Nat.testBit_div_two_pow, Nat.zero_testBit] at this
          rwa [show i - (lo + n) + (lo + n) = i by omega] at this
        simp [hl, hh, hi, hpf, this]
      · simp [hl, hh, hi, hpf]

/-- What decoding gives, by the opcode and the bits the command leaves reserved (30_encoding.md R109). -/
theorem decode_eq (w : CmdWord) :
    decode w =
      if w.toNat % 16 = 1 then .legal (.uinit (CmdWord.configRecord w))
      else if w.toNat % 16 = 2 then
        if w.toNat % 2 ^ 8 = 2 ∧ w.toNat / 2 ^ 16 = 0 then .legal (.utx (CmdWord.field w 8 8))
        else .illegal .reservedNonzero
      else if w.toNat % 16 = 3 then
        if w.toNat % 2 ^ 16 = 3 ∧ w.toNat / 2 ^ 32 = 0 then .legal (.utx9 (CmdWord.field w 16 16))
        else .illegal .reservedNonzero
      else if w.toNat % 16 = 4 then
        if w.toNat = 4 then .legal .urx else .illegal .reservedNonzero
      else if w.toNat % 16 = 5 then
        if w.toNat = 5 then .legal .urx9 else .illegal .reservedNonzero
      else if w.toNat % 16 = 6 then
        if w.toNat = 6 then .legal .urxe else .illegal .reservedNonzero
      else if w.toNat % 16 = 7 then
        if w.toNat = 7 then .legal .udis else .illegal .reservedNonzero
      else .illegal .illegalOpcode := by
  have h16 : (CmdWord.field w 0 4).toNat = w.toNat % 16 := by simp [CmdWord.toNat_field]
  have hlt : w.toNat % 16 < 16 := Nat.mod_lt _ (by decide)
  have hall : ∀ p : CmdWord, w &&& 0xFFFFFFFFFFFFFFFF = p ↔ w.toNat = p.toNat := by
    intro p
    rw [← BitVec.toNat_inj, show (0xFFFFFFFFFFFFFFFF : CmdWord) = BitVec.ofNat 64 (2 ^ 64 - 1) from rfl,
      and_lowMask_toNat w 64 (by decide), Nat.mod_eq_of_lt w.isLt]
  have h1 : w &&& 0x000000000000000F = 0x0000000000000001 ↔ w.toNat % 16 = 1 := by
    rw [← BitVec.toNat_inj, show (0x000000000000000F : CmdWord) = BitVec.ofNat 64 (2 ^ 4 - 1) from rfl,
      and_lowMask_toNat w 4 (by decide)]
    rfl
  have h2 := and_holeMask w 0xFFFFFFFFFFFF00FF 8 8 2 (by decide) (by decide) (by decide)
  have h3 := and_holeMask w 0xFFFFFFFF0000FFFF 16 16 3 (by decide) (by decide) (by decide)
  unfold decode opcodeRow
  rw [h16]
  generalize hop : w.toNat % 16 = op at *
  interval_cases op <;> simp_all

end Sys2Proof
end

