-- ==== Sys2Proof/Laws/State.lean ====
section
/-! SUPPORT. What each update of the state does to each field: one lemma per field per update, so that no
later proof unfolds a record update. -/

namespace Sys2Proof.Machine

variable (s : State)

/-! ### State.setUrsel -/

@[simp] theorem State.setUrsel_u2x (v : Bit) : (s.setUrsel v).u2x = s.u2x := rfl
@[simp] theorem State.setUrsel_mpcm (v : Bit) : (s.setUrsel v).mpcm = s.mpcm := rfl
@[simp] theorem State.setUrsel_rxcie (v : Bit) : (s.setUrsel v).rxcie = s.rxcie := rfl
@[simp] theorem State.setUrsel_txcie (v : Bit) : (s.setUrsel v).txcie = s.txcie := rfl
@[simp] theorem State.setUrsel_udrie (v : Bit) : (s.setUrsel v).udrie = s.udrie := rfl
@[simp] theorem State.setUrsel_rxen (v : Bit) : (s.setUrsel v).rxen = s.rxen := rfl
@[simp] theorem State.setUrsel_txen (v : Bit) : (s.setUrsel v).txen = s.txen := rfl
@[simp] theorem State.setUrsel_ucsz2 (v : Bit) : (s.setUrsel v).ucsz2 = s.ucsz2 := rfl
@[simp] theorem State.setUrsel_txb8 (v : Bit) : (s.setUrsel v).txb8 = s.txb8 := rfl
@[simp] theorem State.setUrsel_ursel (v : Bit) : (s.setUrsel v).ursel = v := rfl
@[simp] theorem State.setUrsel_umsel (v : Bit) : (s.setUrsel v).umsel = s.umsel := rfl
@[simp] theorem State.setUrsel_upm (v : Bit) : (s.setUrsel v).upm = s.upm := rfl
@[simp] theorem State.setUrsel_usbs (v : Bit) : (s.setUrsel v).usbs = s.usbs := rfl
@[simp] theorem State.setUrsel_ucsz (v : Bit) : (s.setUrsel v).ucsz = s.ucsz := rfl
@[simp] theorem State.setUrsel_ucpol (v : Bit) : (s.setUrsel v).ucpol = s.ucpol := rfl
@[simp] theorem State.setUrsel_ubrr (v : Bit) : (s.setUrsel v).ubrr = s.ubrr := rfl
@[simp] theorem State.setUrsel_txc (v : Bit) : (s.setUrsel v).txc = s.txc := rfl
@[simp] theorem State.setUrsel_dor (v : Bit) : (s.setUrsel v).dor = s.dor := rfl
@[simp] theorem State.setUrsel_txBuf (v : Bit) : (s.setUrsel v).txBuf = s.txBuf := rfl
@[simp] theorem State.setUrsel_txShift (v : Bit) : (s.setUrsel v).txShift = s.txShift := rfl
@[simp] theorem State.setUrsel_rxFifo (v : Bit) : (s.setUrsel v).rxFifo = s.rxFifo := rfl
@[simp] theorem State.setUrsel_txTrace (v : Bit) : (s.setUrsel v).txTrace = s.txTrace := rfl
@[simp] theorem State.setUrsel_seq (v : Bit) : (s.setUrsel v).seq = s.seq := rfl
@[simp] theorem State.setUrsel_result (v : Bit) : (s.setUrsel v).result = s.result := rfl
@[simp] theorem State.setUrsel_emptyFe (v : Bit) : (s.setUrsel v).emptyFe = s.emptyFe := rfl
@[simp] theorem State.setUrsel_emptyPe (v : Bit) : (s.setUrsel v).emptyPe = s.emptyPe := rfl
@[simp] theorem State.setUrsel_emptyRxb8 (v : Bit) : (s.setUrsel v).emptyRxb8 = s.emptyRxb8 := rfl
@[simp] theorem State.setUrsel_hostQueue (v : Bit) : (s.setUrsel v).hostQueue = s.hostQueue := rfl
@[simp] theorem State.setUrsel_collected (v : Bit) : (s.setUrsel v).collected = s.collected := rfl
@[simp] theorem State.setUrsel_script (v : Bit) : (s.setUrsel v).script = s.script := rfl
@[simp] theorem State.setUrsel_draws (v : Bit) : (s.setUrsel v).draws = s.draws := rfl

/-! ### State.setUbrrHigh -/

@[simp] theorem State.setUbrrHigh_u2x (v : BitVec Config.ubrrBits) : (s.setUbrrHigh v).u2x = s.u2x := rfl
@[simp] theorem State.setUbrrHigh_mpcm (v : BitVec Config.ubrrBits) : (s.setUbrrHigh v).mpcm = s.mpcm := rfl
@[simp] theorem State.setUbrrHigh_rxcie (v : BitVec Config.ubrrBits) : (s.setUbrrHigh v).rxcie = s.rxcie := rfl
@[simp] theorem State.setUbrrHigh_txcie (v : BitVec Config.ubrrBits) : (s.setUbrrHigh v).txcie = s.txcie := rfl
@[simp] theorem State.setUbrrHigh_udrie (v : BitVec Config.ubrrBits) : (s.setUbrrHigh v).udrie = s.udrie := rfl
@[simp] theorem State.setUbrrHigh_rxen (v : BitVec Config.ubrrBits) : (s.setUbrrHigh v).rxen = s.rxen := rfl
@[simp] theorem State.setUbrrHigh_txen (v : BitVec Config.ubrrBits) : (s.setUbrrHigh v).txen = s.txen := rfl
@[simp] theorem State.setUbrrHigh_ucsz2 (v : BitVec Config.ubrrBits) : (s.setUbrrHigh v).ucsz2 = s.ucsz2 := rfl
@[simp] theorem State.setUbrrHigh_txb8 (v : BitVec Config.ubrrBits) : (s.setUbrrHigh v).txb8 = s.txb8 := rfl
@[simp] theorem State.setUbrrHigh_ursel (v : BitVec Config.ubrrBits) : (s.setUbrrHigh v).ursel = s.ursel := rfl
@[simp] theorem State.setUbrrHigh_umsel (v : BitVec Config.ubrrBits) : (s.setUbrrHigh v).umsel = s.umsel := rfl
@[simp] theorem State.setUbrrHigh_upm (v : BitVec Config.ubrrBits) : (s.setUbrrHigh v).upm = s.upm := rfl
@[simp] theorem State.setUbrrHigh_usbs (v : BitVec Config.ubrrBits) : (s.setUbrrHigh v).usbs = s.usbs := rfl
@[simp] theorem State.setUbrrHigh_ucsz (v : BitVec Config.ubrrBits) : (s.setUbrrHigh v).ucsz = s.ucsz := rfl
@[simp] theorem State.setUbrrHigh_ucpol (v : BitVec Config.ubrrBits) : (s.setUbrrHigh v).ucpol = s.ucpol := rfl
@[simp] theorem State.setUbrrHigh_ubrr (v : BitVec Config.ubrrBits) : (s.setUbrrHigh v).ubrr = (v &&& ~~~ 0xFF) ||| (s.ubrr &&& 0xFF) := rfl
@[simp] theorem State.setUbrrHigh_txc (v : BitVec Config.ubrrBits) : (s.setUbrrHigh v).txc = s.txc := rfl
@[simp] theorem State.setUbrrHigh_dor (v : BitVec Config.ubrrBits) : (s.setUbrrHigh v).dor = s.dor := rfl
@[simp] theorem State.setUbrrHigh_txBuf (v : BitVec Config.ubrrBits) : (s.setUbrrHigh v).txBuf = s.txBuf := rfl
@[simp] theorem State.setUbrrHigh_txShift (v : BitVec Config.ubrrBits) : (s.setUbrrHigh v).txShift = s.txShift := rfl
@[simp] theorem State.setUbrrHigh_rxFifo (v : BitVec Config.ubrrBits) : (s.setUbrrHigh v).rxFifo = s.rxFifo := rfl
@[simp] theorem State.setUbrrHigh_txTrace (v : BitVec Config.ubrrBits) : (s.setUbrrHigh v).txTrace = s.txTrace := rfl
@[simp] theorem State.setUbrrHigh_seq (v : BitVec Config.ubrrBits) : (s.setUbrrHigh v).seq = s.seq := rfl
@[simp] theorem State.setUbrrHigh_result (v : BitVec Config.ubrrBits) : (s.setUbrrHigh v).result = s.result := rfl
@[simp] theorem State.setUbrrHigh_emptyFe (v : BitVec Config.ubrrBits) : (s.setUbrrHigh v).emptyFe = s.emptyFe := rfl
@[simp] theorem State.setUbrrHigh_emptyPe (v : BitVec Config.ubrrBits) : (s.setUbrrHigh v).emptyPe = s.emptyPe := rfl
@[simp] theorem State.setUbrrHigh_emptyRxb8 (v : BitVec Config.ubrrBits) : (s.setUbrrHigh v).emptyRxb8 = s.emptyRxb8 := rfl
@[simp] theorem State.setUbrrHigh_hostQueue (v : BitVec Config.ubrrBits) : (s.setUbrrHigh v).hostQueue = s.hostQueue := rfl
@[simp] theorem State.setUbrrHigh_collected (v : BitVec Config.ubrrBits) : (s.setUbrrHigh v).collected = s.collected := rfl
@[simp] theorem State.setUbrrHigh_script (v : BitVec Config.ubrrBits) : (s.setUbrrHigh v).script = s.script := rfl
@[simp] theorem State.setUbrrHigh_draws (v : BitVec Config.ubrrBits) : (s.setUbrrHigh v).draws = s.draws := rfl

/-! ### State.setUbrrLow -/

@[simp] theorem State.setUbrrLow_u2x (v : BitVec Config.ubrrBits) : (s.setUbrrLow v).u2x = s.u2x := rfl
@[simp] theorem State.setUbrrLow_mpcm (v : BitVec Config.ubrrBits) : (s.setUbrrLow v).mpcm = s.mpcm := rfl
@[simp] theorem State.setUbrrLow_rxcie (v : BitVec Config.ubrrBits) : (s.setUbrrLow v).rxcie = s.rxcie := rfl
@[simp] theorem State.setUbrrLow_txcie (v : BitVec Config.ubrrBits) : (s.setUbrrLow v).txcie = s.txcie := rfl
@[simp] theorem State.setUbrrLow_udrie (v : BitVec Config.ubrrBits) : (s.setUbrrLow v).udrie = s.udrie := rfl
@[simp] theorem State.setUbrrLow_rxen (v : BitVec Config.ubrrBits) : (s.setUbrrLow v).rxen = s.rxen := rfl
@[simp] theorem State.setUbrrLow_txen (v : BitVec Config.ubrrBits) : (s.setUbrrLow v).txen = s.txen := rfl
@[simp] theorem State.setUbrrLow_ucsz2 (v : BitVec Config.ubrrBits) : (s.setUbrrLow v).ucsz2 = s.ucsz2 := rfl
@[simp] theorem State.setUbrrLow_txb8 (v : BitVec Config.ubrrBits) : (s.setUbrrLow v).txb8 = s.txb8 := rfl
@[simp] theorem State.setUbrrLow_ursel (v : BitVec Config.ubrrBits) : (s.setUbrrLow v).ursel = s.ursel := rfl
@[simp] theorem State.setUbrrLow_umsel (v : BitVec Config.ubrrBits) : (s.setUbrrLow v).umsel = s.umsel := rfl
@[simp] theorem State.setUbrrLow_upm (v : BitVec Config.ubrrBits) : (s.setUbrrLow v).upm = s.upm := rfl
@[simp] theorem State.setUbrrLow_usbs (v : BitVec Config.ubrrBits) : (s.setUbrrLow v).usbs = s.usbs := rfl
@[simp] theorem State.setUbrrLow_ucsz (v : BitVec Config.ubrrBits) : (s.setUbrrLow v).ucsz = s.ucsz := rfl
@[simp] theorem State.setUbrrLow_ucpol (v : BitVec Config.ubrrBits) : (s.setUbrrLow v).ucpol = s.ucpol := rfl
@[simp] theorem State.setUbrrLow_ubrr (v : BitVec Config.ubrrBits) : (s.setUbrrLow v).ubrr = (s.ubrr &&& ~~~ 0xFF) ||| (v &&& 0xFF) := rfl
@[simp] theorem State.setUbrrLow_txc (v : BitVec Config.ubrrBits) : (s.setUbrrLow v).txc = s.txc := rfl
@[simp] theorem State.setUbrrLow_dor (v : BitVec Config.ubrrBits) : (s.setUbrrLow v).dor = s.dor := rfl
@[simp] theorem State.setUbrrLow_txBuf (v : BitVec Config.ubrrBits) : (s.setUbrrLow v).txBuf = s.txBuf := rfl
@[simp] theorem State.setUbrrLow_txShift (v : BitVec Config.ubrrBits) : (s.setUbrrLow v).txShift = s.txShift := rfl
@[simp] theorem State.setUbrrLow_rxFifo (v : BitVec Config.ubrrBits) : (s.setUbrrLow v).rxFifo = s.rxFifo := rfl
@[simp] theorem State.setUbrrLow_txTrace (v : BitVec Config.ubrrBits) : (s.setUbrrLow v).txTrace = s.txTrace := rfl
@[simp] theorem State.setUbrrLow_seq (v : BitVec Config.ubrrBits) : (s.setUbrrLow v).seq = s.seq := rfl
@[simp] theorem State.setUbrrLow_result (v : BitVec Config.ubrrBits) : (s.setUbrrLow v).result = s.result := rfl
@[simp] theorem State.setUbrrLow_emptyFe (v : BitVec Config.ubrrBits) : (s.setUbrrLow v).emptyFe = s.emptyFe := rfl
@[simp] theorem State.setUbrrLow_emptyPe (v : BitVec Config.ubrrBits) : (s.setUbrrLow v).emptyPe = s.emptyPe := rfl
@[simp] theorem State.setUbrrLow_emptyRxb8 (v : BitVec Config.ubrrBits) : (s.setUbrrLow v).emptyRxb8 = s.emptyRxb8 := rfl
@[simp] theorem State.setUbrrLow_hostQueue (v : BitVec Config.ubrrBits) : (s.setUbrrLow v).hostQueue = s.hostQueue := rfl
@[simp] theorem State.setUbrrLow_collected (v : BitVec Config.ubrrBits) : (s.setUbrrLow v).collected = s.collected := rfl
@[simp] theorem State.setUbrrLow_script (v : BitVec Config.ubrrBits) : (s.setUbrrLow v).script = s.script := rfl
@[simp] theorem State.setUbrrLow_draws (v : BitVec Config.ubrrBits) : (s.setUbrrLow v).draws = s.draws := rfl

/-! ### State.setMode -/

@[simp] theorem State.setMode_u2x (v : Bit × Bit) : (s.setMode v).u2x = v.2 := rfl
@[simp] theorem State.setMode_mpcm (v : Bit × Bit) : (s.setMode v).mpcm = s.mpcm := rfl
@[simp] theorem State.setMode_rxcie (v : Bit × Bit) : (s.setMode v).rxcie = s.rxcie := rfl
@[simp] theorem State.setMode_txcie (v : Bit × Bit) : (s.setMode v).txcie = s.txcie := rfl
@[simp] theorem State.setMode_udrie (v : Bit × Bit) : (s.setMode v).udrie = s.udrie := rfl
@[simp] theorem State.setMode_rxen (v : Bit × Bit) : (s.setMode v).rxen = s.rxen := rfl
@[simp] theorem State.setMode_txen (v : Bit × Bit) : (s.setMode v).txen = s.txen := rfl
@[simp] theorem State.setMode_ucsz2 (v : Bit × Bit) : (s.setMode v).ucsz2 = s.ucsz2 := rfl
@[simp] theorem State.setMode_txb8 (v : Bit × Bit) : (s.setMode v).txb8 = s.txb8 := rfl
@[simp] theorem State.setMode_ursel (v : Bit × Bit) : (s.setMode v).ursel = s.ursel := rfl
@[simp] theorem State.setMode_umsel (v : Bit × Bit) : (s.setMode v).umsel = v.1 := rfl
@[simp] theorem State.setMode_upm (v : Bit × Bit) : (s.setMode v).upm = s.upm := rfl
@[simp] theorem State.setMode_usbs (v : Bit × Bit) : (s.setMode v).usbs = s.usbs := rfl
@[simp] theorem State.setMode_ucsz (v : Bit × Bit) : (s.setMode v).ucsz = s.ucsz := rfl
@[simp] theorem State.setMode_ucpol (v : Bit × Bit) : (s.setMode v).ucpol = s.ucpol := rfl
@[simp] theorem State.setMode_ubrr (v : Bit × Bit) : (s.setMode v).ubrr = s.ubrr := rfl
@[simp] theorem State.setMode_txc (v : Bit × Bit) : (s.setMode v).txc = s.txc := rfl
@[simp] theorem State.setMode_dor (v : Bit × Bit) : (s.setMode v).dor = s.dor := rfl
@[simp] theorem State.setMode_txBuf (v : Bit × Bit) : (s.setMode v).txBuf = s.txBuf := rfl
@[simp] theorem State.setMode_txShift (v : Bit × Bit) : (s.setMode v).txShift = s.txShift := rfl
@[simp] theorem State.setMode_rxFifo (v : Bit × Bit) : (s.setMode v).rxFifo = s.rxFifo := rfl
@[simp] theorem State.setMode_txTrace (v : Bit × Bit) : (s.setMode v).txTrace = s.txTrace := rfl
@[simp] theorem State.setMode_seq (v : Bit × Bit) : (s.setMode v).seq = s.seq := rfl
@[simp] theorem State.setMode_result (v : Bit × Bit) : (s.setMode v).result = s.result := rfl
@[simp] theorem State.setMode_emptyFe (v : Bit × Bit) : (s.setMode v).emptyFe = s.emptyFe := rfl
@[simp] theorem State.setMode_emptyPe (v : Bit × Bit) : (s.setMode v).emptyPe = s.emptyPe := rfl
@[simp] theorem State.setMode_emptyRxb8 (v : Bit × Bit) : (s.setMode v).emptyRxb8 = s.emptyRxb8 := rfl
@[simp] theorem State.setMode_hostQueue (v : Bit × Bit) : (s.setMode v).hostQueue = s.hostQueue := rfl
@[simp] theorem State.setMode_collected (v : Bit × Bit) : (s.setMode v).collected = s.collected := rfl
@[simp] theorem State.setMode_script (v : Bit × Bit) : (s.setMode v).script = s.script := rfl
@[simp] theorem State.setMode_draws (v : Bit × Bit) : (s.setMode v).draws = s.draws := rfl

/-! ### State.setDuplex -/

@[simp] theorem State.setDuplex_u2x (v : Bit × Bit) : (s.setDuplex v).u2x = s.u2x := rfl
@[simp] theorem State.setDuplex_mpcm (v : Bit × Bit) : (s.setDuplex v).mpcm = s.mpcm := rfl
@[simp] theorem State.setDuplex_rxcie (v : Bit × Bit) : (s.setDuplex v).rxcie = s.rxcie := rfl
@[simp] theorem State.setDuplex_txcie (v : Bit × Bit) : (s.setDuplex v).txcie = s.txcie := rfl
@[simp] theorem State.setDuplex_udrie (v : Bit × Bit) : (s.setDuplex v).udrie = s.udrie := rfl
@[simp] theorem State.setDuplex_rxen (v : Bit × Bit) : (s.setDuplex v).rxen = v.2 := rfl
@[simp] theorem State.setDuplex_txen (v : Bit × Bit) : (s.setDuplex v).txen = v.1 := rfl
@[simp] theorem State.setDuplex_ucsz2 (v : Bit × Bit) : (s.setDuplex v).ucsz2 = s.ucsz2 := rfl
@[simp] theorem State.setDuplex_txb8 (v : Bit × Bit) : (s.setDuplex v).txb8 = s.txb8 := rfl
@[simp] theorem State.setDuplex_ursel (v : Bit × Bit) : (s.setDuplex v).ursel = s.ursel := rfl
@[simp] theorem State.setDuplex_umsel (v : Bit × Bit) : (s.setDuplex v).umsel = s.umsel := rfl
@[simp] theorem State.setDuplex_upm (v : Bit × Bit) : (s.setDuplex v).upm = s.upm := rfl
@[simp] theorem State.setDuplex_usbs (v : Bit × Bit) : (s.setDuplex v).usbs = s.usbs := rfl
@[simp] theorem State.setDuplex_ucsz (v : Bit × Bit) : (s.setDuplex v).ucsz = s.ucsz := rfl
@[simp] theorem State.setDuplex_ucpol (v : Bit × Bit) : (s.setDuplex v).ucpol = s.ucpol := rfl
@[simp] theorem State.setDuplex_ubrr (v : Bit × Bit) : (s.setDuplex v).ubrr = s.ubrr := rfl
@[simp] theorem State.setDuplex_txc (v : Bit × Bit) : (s.setDuplex v).txc = s.txc := rfl
@[simp] theorem State.setDuplex_dor (v : Bit × Bit) : (s.setDuplex v).dor = s.dor := rfl
@[simp] theorem State.setDuplex_txBuf (v : Bit × Bit) : (s.setDuplex v).txBuf = s.txBuf := rfl
@[simp] theorem State.setDuplex_txShift (v : Bit × Bit) : (s.setDuplex v).txShift = s.txShift := rfl
@[simp] theorem State.setDuplex_rxFifo (v : Bit × Bit) : (s.setDuplex v).rxFifo = s.rxFifo := rfl
@[simp] theorem State.setDuplex_txTrace (v : Bit × Bit) : (s.setDuplex v).txTrace = s.txTrace := rfl
@[simp] theorem State.setDuplex_seq (v : Bit × Bit) : (s.setDuplex v).seq = s.seq := rfl
@[simp] theorem State.setDuplex_result (v : Bit × Bit) : (s.setDuplex v).result = s.result := rfl
@[simp] theorem State.setDuplex_emptyFe (v : Bit × Bit) : (s.setDuplex v).emptyFe = s.emptyFe := rfl
@[simp] theorem State.setDuplex_emptyPe (v : Bit × Bit) : (s.setDuplex v).emptyPe = s.emptyPe := rfl
@[simp] theorem State.setDuplex_emptyRxb8 (v : Bit × Bit) : (s.setDuplex v).emptyRxb8 = s.emptyRxb8 := rfl
@[simp] theorem State.setDuplex_hostQueue (v : Bit × Bit) : (s.setDuplex v).hostQueue = s.hostQueue := rfl
@[simp] theorem State.setDuplex_collected (v : Bit × Bit) : (s.setDuplex v).collected = s.collected := rfl
@[simp] theorem State.setDuplex_script (v : Bit × Bit) : (s.setDuplex v).script = s.script := rfl
@[simp] theorem State.setDuplex_draws (v : Bit × Bit) : (s.setDuplex v).draws = s.draws := rfl

/-! ### State.setSize -/

@[simp] theorem State.setSize_u2x (v : Bit × BitVec 2) : (s.setSize v).u2x = s.u2x := rfl
@[simp] theorem State.setSize_mpcm (v : Bit × BitVec 2) : (s.setSize v).mpcm = s.mpcm := rfl
@[simp] theorem State.setSize_rxcie (v : Bit × BitVec 2) : (s.setSize v).rxcie = s.rxcie := rfl
@[simp] theorem State.setSize_txcie (v : Bit × BitVec 2) : (s.setSize v).txcie = s.txcie := rfl
@[simp] theorem State.setSize_udrie (v : Bit × BitVec 2) : (s.setSize v).udrie = s.udrie := rfl
@[simp] theorem State.setSize_rxen (v : Bit × BitVec 2) : (s.setSize v).rxen = s.rxen := rfl
@[simp] theorem State.setSize_txen (v : Bit × BitVec 2) : (s.setSize v).txen = s.txen := rfl
@[simp] theorem State.setSize_ucsz2 (v : Bit × BitVec 2) : (s.setSize v).ucsz2 = v.1 := rfl
@[simp] theorem State.setSize_txb8 (v : Bit × BitVec 2) : (s.setSize v).txb8 = s.txb8 := rfl
@[simp] theorem State.setSize_ursel (v : Bit × BitVec 2) : (s.setSize v).ursel = s.ursel := rfl
@[simp] theorem State.setSize_umsel (v : Bit × BitVec 2) : (s.setSize v).umsel = s.umsel := rfl
@[simp] theorem State.setSize_upm (v : Bit × BitVec 2) : (s.setSize v).upm = s.upm := rfl
@[simp] theorem State.setSize_usbs (v : Bit × BitVec 2) : (s.setSize v).usbs = s.usbs := rfl
@[simp] theorem State.setSize_ucsz (v : Bit × BitVec 2) : (s.setSize v).ucsz = v.2 := rfl
@[simp] theorem State.setSize_ucpol (v : Bit × BitVec 2) : (s.setSize v).ucpol = s.ucpol := rfl
@[simp] theorem State.setSize_ubrr (v : Bit × BitVec 2) : (s.setSize v).ubrr = s.ubrr := rfl
@[simp] theorem State.setSize_txc (v : Bit × BitVec 2) : (s.setSize v).txc = s.txc := rfl
@[simp] theorem State.setSize_dor (v : Bit × BitVec 2) : (s.setSize v).dor = s.dor := rfl
@[simp] theorem State.setSize_txBuf (v : Bit × BitVec 2) : (s.setSize v).txBuf = s.txBuf := rfl
@[simp] theorem State.setSize_txShift (v : Bit × BitVec 2) : (s.setSize v).txShift = s.txShift := rfl
@[simp] theorem State.setSize_rxFifo (v : Bit × BitVec 2) : (s.setSize v).rxFifo = s.rxFifo := rfl
@[simp] theorem State.setSize_txTrace (v : Bit × BitVec 2) : (s.setSize v).txTrace = s.txTrace := rfl
@[simp] theorem State.setSize_seq (v : Bit × BitVec 2) : (s.setSize v).seq = s.seq := rfl
@[simp] theorem State.setSize_result (v : Bit × BitVec 2) : (s.setSize v).result = s.result := rfl
@[simp] theorem State.setSize_emptyFe (v : Bit × BitVec 2) : (s.setSize v).emptyFe = s.emptyFe := rfl
@[simp] theorem State.setSize_emptyPe (v : Bit × BitVec 2) : (s.setSize v).emptyPe = s.emptyPe := rfl
@[simp] theorem State.setSize_emptyRxb8 (v : Bit × BitVec 2) : (s.setSize v).emptyRxb8 = s.emptyRxb8 := rfl
@[simp] theorem State.setSize_hostQueue (v : Bit × BitVec 2) : (s.setSize v).hostQueue = s.hostQueue := rfl
@[simp] theorem State.setSize_collected (v : Bit × BitVec 2) : (s.setSize v).collected = s.collected := rfl
@[simp] theorem State.setSize_script (v : Bit × BitVec 2) : (s.setSize v).script = s.script := rfl
@[simp] theorem State.setSize_draws (v : Bit × BitVec 2) : (s.setSize v).draws = s.draws := rfl

/-! ### State.setParity -/

@[simp] theorem State.setParity_u2x (v : BitVec 2) : (s.setParity v).u2x = s.u2x := rfl
@[simp] theorem State.setParity_mpcm (v : BitVec 2) : (s.setParity v).mpcm = s.mpcm := rfl
@[simp] theorem State.setParity_rxcie (v : BitVec 2) : (s.setParity v).rxcie = s.rxcie := rfl
@[simp] theorem State.setParity_txcie (v : BitVec 2) : (s.setParity v).txcie = s.txcie := rfl
@[simp] theorem State.setParity_udrie (v : BitVec 2) : (s.setParity v).udrie = s.udrie := rfl
@[simp] theorem State.setParity_rxen (v : BitVec 2) : (s.setParity v).rxen = s.rxen := rfl
@[simp] theorem State.setParity_txen (v : BitVec 2) : (s.setParity v).txen = s.txen := rfl
@[simp] theorem State.setParity_ucsz2 (v : BitVec 2) : (s.setParity v).ucsz2 = s.ucsz2 := rfl
@[simp] theorem State.setParity_txb8 (v : BitVec 2) : (s.setParity v).txb8 = s.txb8 := rfl
@[simp] theorem State.setParity_ursel (v : BitVec 2) : (s.setParity v).ursel = s.ursel := rfl
@[simp] theorem State.setParity_umsel (v : BitVec 2) : (s.setParity v).umsel = s.umsel := rfl
@[simp] theorem State.setParity_upm (v : BitVec 2) : (s.setParity v).upm = v := rfl
@[simp] theorem State.setParity_usbs (v : BitVec 2) : (s.setParity v).usbs = s.usbs := rfl
@[simp] theorem State.setParity_ucsz (v : BitVec 2) : (s.setParity v).ucsz = s.ucsz := rfl
@[simp] theorem State.setParity_ucpol (v : BitVec 2) : (s.setParity v).ucpol = s.ucpol := rfl
@[simp] theorem State.setParity_ubrr (v : BitVec 2) : (s.setParity v).ubrr = s.ubrr := rfl
@[simp] theorem State.setParity_txc (v : BitVec 2) : (s.setParity v).txc = s.txc := rfl
@[simp] theorem State.setParity_dor (v : BitVec 2) : (s.setParity v).dor = s.dor := rfl
@[simp] theorem State.setParity_txBuf (v : BitVec 2) : (s.setParity v).txBuf = s.txBuf := rfl
@[simp] theorem State.setParity_txShift (v : BitVec 2) : (s.setParity v).txShift = s.txShift := rfl
@[simp] theorem State.setParity_rxFifo (v : BitVec 2) : (s.setParity v).rxFifo = s.rxFifo := rfl
@[simp] theorem State.setParity_txTrace (v : BitVec 2) : (s.setParity v).txTrace = s.txTrace := rfl
@[simp] theorem State.setParity_seq (v : BitVec 2) : (s.setParity v).seq = s.seq := rfl
@[simp] theorem State.setParity_result (v : BitVec 2) : (s.setParity v).result = s.result := rfl
@[simp] theorem State.setParity_emptyFe (v : BitVec 2) : (s.setParity v).emptyFe = s.emptyFe := rfl
@[simp] theorem State.setParity_emptyPe (v : BitVec 2) : (s.setParity v).emptyPe = s.emptyPe := rfl
@[simp] theorem State.setParity_emptyRxb8 (v : BitVec 2) : (s.setParity v).emptyRxb8 = s.emptyRxb8 := rfl
@[simp] theorem State.setParity_hostQueue (v : BitVec 2) : (s.setParity v).hostQueue = s.hostQueue := rfl
@[simp] theorem State.setParity_collected (v : BitVec 2) : (s.setParity v).collected = s.collected := rfl
@[simp] theorem State.setParity_script (v : BitVec 2) : (s.setParity v).script = s.script := rfl
@[simp] theorem State.setParity_draws (v : BitVec 2) : (s.setParity v).draws = s.draws := rfl

/-! ### State.setStop -/

@[simp] theorem State.setStop_u2x (v : Bit) : (s.setStop v).u2x = s.u2x := rfl
@[simp] theorem State.setStop_mpcm (v : Bit) : (s.setStop v).mpcm = s.mpcm := rfl
@[simp] theorem State.setStop_rxcie (v : Bit) : (s.setStop v).rxcie = s.rxcie := rfl
@[simp] theorem State.setStop_txcie (v : Bit) : (s.setStop v).txcie = s.txcie := rfl
@[simp] theorem State.setStop_udrie (v : Bit) : (s.setStop v).udrie = s.udrie := rfl
@[simp] theorem State.setStop_rxen (v : Bit) : (s.setStop v).rxen = s.rxen := rfl
@[simp] theorem State.setStop_txen (v : Bit) : (s.setStop v).txen = s.txen := rfl
@[simp] theorem State.setStop_ucsz2 (v : Bit) : (s.setStop v).ucsz2 = s.ucsz2 := rfl
@[simp] theorem State.setStop_txb8 (v : Bit) : (s.setStop v).txb8 = s.txb8 := rfl
@[simp] theorem State.setStop_ursel (v : Bit) : (s.setStop v).ursel = s.ursel := rfl
@[simp] theorem State.setStop_umsel (v : Bit) : (s.setStop v).umsel = s.umsel := rfl
@[simp] theorem State.setStop_upm (v : Bit) : (s.setStop v).upm = s.upm := rfl
@[simp] theorem State.setStop_usbs (v : Bit) : (s.setStop v).usbs = v := rfl
@[simp] theorem State.setStop_ucsz (v : Bit) : (s.setStop v).ucsz = s.ucsz := rfl
@[simp] theorem State.setStop_ucpol (v : Bit) : (s.setStop v).ucpol = s.ucpol := rfl
@[simp] theorem State.setStop_ubrr (v : Bit) : (s.setStop v).ubrr = s.ubrr := rfl
@[simp] theorem State.setStop_txc (v : Bit) : (s.setStop v).txc = s.txc := rfl
@[simp] theorem State.setStop_dor (v : Bit) : (s.setStop v).dor = s.dor := rfl
@[simp] theorem State.setStop_txBuf (v : Bit) : (s.setStop v).txBuf = s.txBuf := rfl
@[simp] theorem State.setStop_txShift (v : Bit) : (s.setStop v).txShift = s.txShift := rfl
@[simp] theorem State.setStop_rxFifo (v : Bit) : (s.setStop v).rxFifo = s.rxFifo := rfl
@[simp] theorem State.setStop_txTrace (v : Bit) : (s.setStop v).txTrace = s.txTrace := rfl
@[simp] theorem State.setStop_seq (v : Bit) : (s.setStop v).seq = s.seq := rfl
@[simp] theorem State.setStop_result (v : Bit) : (s.setStop v).result = s.result := rfl
@[simp] theorem State.setStop_emptyFe (v : Bit) : (s.setStop v).emptyFe = s.emptyFe := rfl
@[simp] theorem State.setStop_emptyPe (v : Bit) : (s.setStop v).emptyPe = s.emptyPe := rfl
@[simp] theorem State.setStop_emptyRxb8 (v : Bit) : (s.setStop v).emptyRxb8 = s.emptyRxb8 := rfl
@[simp] theorem State.setStop_hostQueue (v : Bit) : (s.setStop v).hostQueue = s.hostQueue := rfl
@[simp] theorem State.setStop_collected (v : Bit) : (s.setStop v).collected = s.collected := rfl
@[simp] theorem State.setStop_script (v : Bit) : (s.setStop v).script = s.script := rfl
@[simp] theorem State.setStop_draws (v : Bit) : (s.setStop v).draws = s.draws := rfl

/-! ### State.setPol -/

@[simp] theorem State.setPol_u2x (v : Bit) : (s.setPol v).u2x = s.u2x := rfl
@[simp] theorem State.setPol_mpcm (v : Bit) : (s.setPol v).mpcm = s.mpcm := rfl
@[simp] theorem State.setPol_rxcie (v : Bit) : (s.setPol v).rxcie = s.rxcie := rfl
@[simp] theorem State.setPol_txcie (v : Bit) : (s.setPol v).txcie = s.txcie := rfl
@[simp] theorem State.setPol_udrie (v : Bit) : (s.setPol v).udrie = s.udrie := rfl
@[simp] theorem State.setPol_rxen (v : Bit) : (s.setPol v).rxen = s.rxen := rfl
@[simp] theorem State.setPol_txen (v : Bit) : (s.setPol v).txen = s.txen := rfl
@[simp] theorem State.setPol_ucsz2 (v : Bit) : (s.setPol v).ucsz2 = s.ucsz2 := rfl
@[simp] theorem State.setPol_txb8 (v : Bit) : (s.setPol v).txb8 = s.txb8 := rfl
@[simp] theorem State.setPol_ursel (v : Bit) : (s.setPol v).ursel = s.ursel := rfl
@[simp] theorem State.setPol_umsel (v : Bit) : (s.setPol v).umsel = s.umsel := rfl
@[simp] theorem State.setPol_upm (v : Bit) : (s.setPol v).upm = s.upm := rfl
@[simp] theorem State.setPol_usbs (v : Bit) : (s.setPol v).usbs = s.usbs := rfl
@[simp] theorem State.setPol_ucsz (v : Bit) : (s.setPol v).ucsz = s.ucsz := rfl
@[simp] theorem State.setPol_ucpol (v : Bit) : (s.setPol v).ucpol = v := rfl
@[simp] theorem State.setPol_ubrr (v : Bit) : (s.setPol v).ubrr = s.ubrr := rfl
@[simp] theorem State.setPol_txc (v : Bit) : (s.setPol v).txc = s.txc := rfl
@[simp] theorem State.setPol_dor (v : Bit) : (s.setPol v).dor = s.dor := rfl
@[simp] theorem State.setPol_txBuf (v : Bit) : (s.setPol v).txBuf = s.txBuf := rfl
@[simp] theorem State.setPol_txShift (v : Bit) : (s.setPol v).txShift = s.txShift := rfl
@[simp] theorem State.setPol_rxFifo (v : Bit) : (s.setPol v).rxFifo = s.rxFifo := rfl
@[simp] theorem State.setPol_txTrace (v : Bit) : (s.setPol v).txTrace = s.txTrace := rfl
@[simp] theorem State.setPol_seq (v : Bit) : (s.setPol v).seq = s.seq := rfl
@[simp] theorem State.setPol_result (v : Bit) : (s.setPol v).result = s.result := rfl
@[simp] theorem State.setPol_emptyFe (v : Bit) : (s.setPol v).emptyFe = s.emptyFe := rfl
@[simp] theorem State.setPol_emptyPe (v : Bit) : (s.setPol v).emptyPe = s.emptyPe := rfl
@[simp] theorem State.setPol_emptyRxb8 (v : Bit) : (s.setPol v).emptyRxb8 = s.emptyRxb8 := rfl
@[simp] theorem State.setPol_hostQueue (v : Bit) : (s.setPol v).hostQueue = s.hostQueue := rfl
@[simp] theorem State.setPol_collected (v : Bit) : (s.setPol v).collected = s.collected := rfl
@[simp] theorem State.setPol_script (v : Bit) : (s.setPol v).script = s.script := rfl
@[simp] theorem State.setPol_draws (v : Bit) : (s.setPol v).draws = s.draws := rfl

/-! ### State.setIrq -/

@[simp] theorem State.setIrq_u2x (v : Bit × Bit × Bit) : (s.setIrq v).u2x = s.u2x := rfl
@[simp] theorem State.setIrq_mpcm (v : Bit × Bit × Bit) : (s.setIrq v).mpcm = s.mpcm := rfl
@[simp] theorem State.setIrq_rxcie (v : Bit × Bit × Bit) : (s.setIrq v).rxcie = v.1 := rfl
@[simp] theorem State.setIrq_txcie (v : Bit × Bit × Bit) : (s.setIrq v).txcie = v.2.1 := rfl
@[simp] theorem State.setIrq_udrie (v : Bit × Bit × Bit) : (s.setIrq v).udrie = v.2.2 := rfl
@[simp] theorem State.setIrq_rxen (v : Bit × Bit × Bit) : (s.setIrq v).rxen = s.rxen := rfl
@[simp] theorem State.setIrq_txen (v : Bit × Bit × Bit) : (s.setIrq v).txen = s.txen := rfl
@[simp] theorem State.setIrq_ucsz2 (v : Bit × Bit × Bit) : (s.setIrq v).ucsz2 = s.ucsz2 := rfl
@[simp] theorem State.setIrq_txb8 (v : Bit × Bit × Bit) : (s.setIrq v).txb8 = s.txb8 := rfl
@[simp] theorem State.setIrq_ursel (v : Bit × Bit × Bit) : (s.setIrq v).ursel = s.ursel := rfl
@[simp] theorem State.setIrq_umsel (v : Bit × Bit × Bit) : (s.setIrq v).umsel = s.umsel := rfl
@[simp] theorem State.setIrq_upm (v : Bit × Bit × Bit) : (s.setIrq v).upm = s.upm := rfl
@[simp] theorem State.setIrq_usbs (v : Bit × Bit × Bit) : (s.setIrq v).usbs = s.usbs := rfl
@[simp] theorem State.setIrq_ucsz (v : Bit × Bit × Bit) : (s.setIrq v).ucsz = s.ucsz := rfl
@[simp] theorem State.setIrq_ucpol (v : Bit × Bit × Bit) : (s.setIrq v).ucpol = s.ucpol := rfl
@[simp] theorem State.setIrq_ubrr (v : Bit × Bit × Bit) : (s.setIrq v).ubrr = s.ubrr := rfl
@[simp] theorem State.setIrq_txc (v : Bit × Bit × Bit) : (s.setIrq v).txc = s.txc := rfl
@[simp] theorem State.setIrq_dor (v : Bit × Bit × Bit) : (s.setIrq v).dor = s.dor := rfl
@[simp] theorem State.setIrq_txBuf (v : Bit × Bit × Bit) : (s.setIrq v).txBuf = s.txBuf := rfl
@[simp] theorem State.setIrq_txShift (v : Bit × Bit × Bit) : (s.setIrq v).txShift = s.txShift := rfl
@[simp] theorem State.setIrq_rxFifo (v : Bit × Bit × Bit) : (s.setIrq v).rxFifo = s.rxFifo := rfl
@[simp] theorem State.setIrq_txTrace (v : Bit × Bit × Bit) : (s.setIrq v).txTrace = s.txTrace := rfl
@[simp] theorem State.setIrq_seq (v : Bit × Bit × Bit) : (s.setIrq v).seq = s.seq := rfl
@[simp] theorem State.setIrq_result (v : Bit × Bit × Bit) : (s.setIrq v).result = s.result := rfl
@[simp] theorem State.setIrq_emptyFe (v : Bit × Bit × Bit) : (s.setIrq v).emptyFe = s.emptyFe := rfl
@[simp] theorem State.setIrq_emptyPe (v : Bit × Bit × Bit) : (s.setIrq v).emptyPe = s.emptyPe := rfl
@[simp] theorem State.setIrq_emptyRxb8 (v : Bit × Bit × Bit) : (s.setIrq v).emptyRxb8 = s.emptyRxb8 := rfl
@[simp] theorem State.setIrq_hostQueue (v : Bit × Bit × Bit) : (s.setIrq v).hostQueue = s.hostQueue := rfl
@[simp] theorem State.setIrq_collected (v : Bit × Bit × Bit) : (s.setIrq v).collected = s.collected := rfl
@[simp] theorem State.setIrq_script (v : Bit × Bit × Bit) : (s.setIrq v).script = s.script := rfl
@[simp] theorem State.setIrq_draws (v : Bit × Bit × Bit) : (s.setIrq v).draws = s.draws := rfl

/-! ### State.setTxb8 -/

@[simp] theorem State.setTxb8_u2x (v : Bit) : (s.setTxb8 v).u2x = s.u2x := rfl
@[simp] theorem State.setTxb8_mpcm (v : Bit) : (s.setTxb8 v).mpcm = s.mpcm := rfl
@[simp] theorem State.setTxb8_rxcie (v : Bit) : (s.setTxb8 v).rxcie = s.rxcie := rfl
@[simp] theorem State.setTxb8_txcie (v : Bit) : (s.setTxb8 v).txcie = s.txcie := rfl
@[simp] theorem State.setTxb8_udrie (v : Bit) : (s.setTxb8 v).udrie = s.udrie := rfl
@[simp] theorem State.setTxb8_rxen (v : Bit) : (s.setTxb8 v).rxen = s.rxen := rfl
@[simp] theorem State.setTxb8_txen (v : Bit) : (s.setTxb8 v).txen = s.txen := rfl
@[simp] theorem State.setTxb8_ucsz2 (v : Bit) : (s.setTxb8 v).ucsz2 = s.ucsz2 := rfl
@[simp] theorem State.setTxb8_txb8 (v : Bit) : (s.setTxb8 v).txb8 = v := rfl
@[simp] theorem State.setTxb8_ursel (v : Bit) : (s.setTxb8 v).ursel = s.ursel := rfl
@[simp] theorem State.setTxb8_umsel (v : Bit) : (s.setTxb8 v).umsel = s.umsel := rfl
@[simp] theorem State.setTxb8_upm (v : Bit) : (s.setTxb8 v).upm = s.upm := rfl
@[simp] theorem State.setTxb8_usbs (v : Bit) : (s.setTxb8 v).usbs = s.usbs := rfl
@[simp] theorem State.setTxb8_ucsz (v : Bit) : (s.setTxb8 v).ucsz = s.ucsz := rfl
@[simp] theorem State.setTxb8_ucpol (v : Bit) : (s.setTxb8 v).ucpol = s.ucpol := rfl
@[simp] theorem State.setTxb8_ubrr (v : Bit) : (s.setTxb8 v).ubrr = s.ubrr := rfl
@[simp] theorem State.setTxb8_txc (v : Bit) : (s.setTxb8 v).txc = s.txc := rfl
@[simp] theorem State.setTxb8_dor (v : Bit) : (s.setTxb8 v).dor = s.dor := rfl
@[simp] theorem State.setTxb8_txBuf (v : Bit) : (s.setTxb8 v).txBuf = s.txBuf := rfl
@[simp] theorem State.setTxb8_txShift (v : Bit) : (s.setTxb8 v).txShift = s.txShift := rfl
@[simp] theorem State.setTxb8_rxFifo (v : Bit) : (s.setTxb8 v).rxFifo = s.rxFifo := rfl
@[simp] theorem State.setTxb8_txTrace (v : Bit) : (s.setTxb8 v).txTrace = s.txTrace := rfl
@[simp] theorem State.setTxb8_seq (v : Bit) : (s.setTxb8 v).seq = s.seq := rfl
@[simp] theorem State.setTxb8_result (v : Bit) : (s.setTxb8 v).result = s.result := rfl
@[simp] theorem State.setTxb8_emptyFe (v : Bit) : (s.setTxb8 v).emptyFe = s.emptyFe := rfl
@[simp] theorem State.setTxb8_emptyPe (v : Bit) : (s.setTxb8 v).emptyPe = s.emptyPe := rfl
@[simp] theorem State.setTxb8_emptyRxb8 (v : Bit) : (s.setTxb8 v).emptyRxb8 = s.emptyRxb8 := rfl
@[simp] theorem State.setTxb8_hostQueue (v : Bit) : (s.setTxb8 v).hostQueue = s.hostQueue := rfl
@[simp] theorem State.setTxb8_collected (v : Bit) : (s.setTxb8 v).collected = s.collected := rfl
@[simp] theorem State.setTxb8_script (v : Bit) : (s.setTxb8 v).script = s.script := rfl
@[simp] theorem State.setTxb8_draws (v : Bit) : (s.setTxb8 v).draws = s.draws := rfl

/-! ### State.setTxc -/

@[simp] theorem State.setTxc_u2x (v : Bit) : (s.setTxc v).u2x = s.u2x := rfl
@[simp] theorem State.setTxc_mpcm (v : Bit) : (s.setTxc v).mpcm = s.mpcm := rfl
@[simp] theorem State.setTxc_rxcie (v : Bit) : (s.setTxc v).rxcie = s.rxcie := rfl
@[simp] theorem State.setTxc_txcie (v : Bit) : (s.setTxc v).txcie = s.txcie := rfl
@[simp] theorem State.setTxc_udrie (v : Bit) : (s.setTxc v).udrie = s.udrie := rfl
@[simp] theorem State.setTxc_rxen (v : Bit) : (s.setTxc v).rxen = s.rxen := rfl
@[simp] theorem State.setTxc_txen (v : Bit) : (s.setTxc v).txen = s.txen := rfl
@[simp] theorem State.setTxc_ucsz2 (v : Bit) : (s.setTxc v).ucsz2 = s.ucsz2 := rfl
@[simp] theorem State.setTxc_txb8 (v : Bit) : (s.setTxc v).txb8 = s.txb8 := rfl
@[simp] theorem State.setTxc_ursel (v : Bit) : (s.setTxc v).ursel = s.ursel := rfl
@[simp] theorem State.setTxc_umsel (v : Bit) : (s.setTxc v).umsel = s.umsel := rfl
@[simp] theorem State.setTxc_upm (v : Bit) : (s.setTxc v).upm = s.upm := rfl
@[simp] theorem State.setTxc_usbs (v : Bit) : (s.setTxc v).usbs = s.usbs := rfl
@[simp] theorem State.setTxc_ucsz (v : Bit) : (s.setTxc v).ucsz = s.ucsz := rfl
@[simp] theorem State.setTxc_ucpol (v : Bit) : (s.setTxc v).ucpol = s.ucpol := rfl
@[simp] theorem State.setTxc_ubrr (v : Bit) : (s.setTxc v).ubrr = s.ubrr := rfl
@[simp] theorem State.setTxc_txc (v : Bit) : (s.setTxc v).txc = v := rfl
@[simp] theorem State.setTxc_dor (v : Bit) : (s.setTxc v).dor = s.dor := rfl
@[simp] theorem State.setTxc_txBuf (v : Bit) : (s.setTxc v).txBuf = s.txBuf := rfl
@[simp] theorem State.setTxc_txShift (v : Bit) : (s.setTxc v).txShift = s.txShift := rfl
@[simp] theorem State.setTxc_rxFifo (v : Bit) : (s.setTxc v).rxFifo = s.rxFifo := rfl
@[simp] theorem State.setTxc_txTrace (v : Bit) : (s.setTxc v).txTrace = s.txTrace := rfl
@[simp] theorem State.setTxc_seq (v : Bit) : (s.setTxc v).seq = s.seq := rfl
@[simp] theorem State.setTxc_result (v : Bit) : (s.setTxc v).result = s.result := rfl
@[simp] theorem State.setTxc_emptyFe (v : Bit) : (s.setTxc v).emptyFe = s.emptyFe := rfl
@[simp] theorem State.setTxc_emptyPe (v : Bit) : (s.setTxc v).emptyPe = s.emptyPe := rfl
@[simp] theorem State.setTxc_emptyRxb8 (v : Bit) : (s.setTxc v).emptyRxb8 = s.emptyRxb8 := rfl
@[simp] theorem State.setTxc_hostQueue (v : Bit) : (s.setTxc v).hostQueue = s.hostQueue := rfl
@[simp] theorem State.setTxc_collected (v : Bit) : (s.setTxc v).collected = s.collected := rfl
@[simp] theorem State.setTxc_script (v : Bit) : (s.setTxc v).script = s.script := rfl
@[simp] theorem State.setTxc_draws (v : Bit) : (s.setTxc v).draws = s.draws := rfl

/-! ### State.setDor -/

@[simp] theorem State.setDor_u2x (v : Bit) : (s.setDor v).u2x = s.u2x := rfl
@[simp] theorem State.setDor_mpcm (v : Bit) : (s.setDor v).mpcm = s.mpcm := rfl
@[simp] theorem State.setDor_rxcie (v : Bit) : (s.setDor v).rxcie = s.rxcie := rfl
@[simp] theorem State.setDor_txcie (v : Bit) : (s.setDor v).txcie = s.txcie := rfl
@[simp] theorem State.setDor_udrie (v : Bit) : (s.setDor v).udrie = s.udrie := rfl
@[simp] theorem State.setDor_rxen (v : Bit) : (s.setDor v).rxen = s.rxen := rfl
@[simp] theorem State.setDor_txen (v : Bit) : (s.setDor v).txen = s.txen := rfl
@[simp] theorem State.setDor_ucsz2 (v : Bit) : (s.setDor v).ucsz2 = s.ucsz2 := rfl
@[simp] theorem State.setDor_txb8 (v : Bit) : (s.setDor v).txb8 = s.txb8 := rfl
@[simp] theorem State.setDor_ursel (v : Bit) : (s.setDor v).ursel = s.ursel := rfl
@[simp] theorem State.setDor_umsel (v : Bit) : (s.setDor v).umsel = s.umsel := rfl
@[simp] theorem State.setDor_upm (v : Bit) : (s.setDor v).upm = s.upm := rfl
@[simp] theorem State.setDor_usbs (v : Bit) : (s.setDor v).usbs = s.usbs := rfl
@[simp] theorem State.setDor_ucsz (v : Bit) : (s.setDor v).ucsz = s.ucsz := rfl
@[simp] theorem State.setDor_ucpol (v : Bit) : (s.setDor v).ucpol = s.ucpol := rfl
@[simp] theorem State.setDor_ubrr (v : Bit) : (s.setDor v).ubrr = s.ubrr := rfl
@[simp] theorem State.setDor_txc (v : Bit) : (s.setDor v).txc = s.txc := rfl
@[simp] theorem State.setDor_dor (v : Bit) : (s.setDor v).dor = v := rfl
@[simp] theorem State.setDor_txBuf (v : Bit) : (s.setDor v).txBuf = s.txBuf := rfl
@[simp] theorem State.setDor_txShift (v : Bit) : (s.setDor v).txShift = s.txShift := rfl
@[simp] theorem State.setDor_rxFifo (v : Bit) : (s.setDor v).rxFifo = s.rxFifo := rfl
@[simp] theorem State.setDor_txTrace (v : Bit) : (s.setDor v).txTrace = s.txTrace := rfl
@[simp] theorem State.setDor_seq (v : Bit) : (s.setDor v).seq = s.seq := rfl
@[simp] theorem State.setDor_result (v : Bit) : (s.setDor v).result = s.result := rfl
@[simp] theorem State.setDor_emptyFe (v : Bit) : (s.setDor v).emptyFe = s.emptyFe := rfl
@[simp] theorem State.setDor_emptyPe (v : Bit) : (s.setDor v).emptyPe = s.emptyPe := rfl
@[simp] theorem State.setDor_emptyRxb8 (v : Bit) : (s.setDor v).emptyRxb8 = s.emptyRxb8 := rfl
@[simp] theorem State.setDor_hostQueue (v : Bit) : (s.setDor v).hostQueue = s.hostQueue := rfl
@[simp] theorem State.setDor_collected (v : Bit) : (s.setDor v).collected = s.collected := rfl
@[simp] theorem State.setDor_script (v : Bit) : (s.setDor v).script = s.script := rfl
@[simp] theorem State.setDor_draws (v : Bit) : (s.setDor v).draws = s.draws := rfl

/-! ### State.setTxBuf -/

@[simp] theorem State.setTxBuf_u2x (v : Option (Bit × Byte)) : (s.setTxBuf v).u2x = s.u2x := rfl
@[simp] theorem State.setTxBuf_mpcm (v : Option (Bit × Byte)) : (s.setTxBuf v).mpcm = s.mpcm := rfl
@[simp] theorem State.setTxBuf_rxcie (v : Option (Bit × Byte)) : (s.setTxBuf v).rxcie = s.rxcie := rfl
@[simp] theorem State.setTxBuf_txcie (v : Option (Bit × Byte)) : (s.setTxBuf v).txcie = s.txcie := rfl
@[simp] theorem State.setTxBuf_udrie (v : Option (Bit × Byte)) : (s.setTxBuf v).udrie = s.udrie := rfl
@[simp] theorem State.setTxBuf_rxen (v : Option (Bit × Byte)) : (s.setTxBuf v).rxen = s.rxen := rfl
@[simp] theorem State.setTxBuf_txen (v : Option (Bit × Byte)) : (s.setTxBuf v).txen = s.txen := rfl
@[simp] theorem State.setTxBuf_ucsz2 (v : Option (Bit × Byte)) : (s.setTxBuf v).ucsz2 = s.ucsz2 := rfl
@[simp] theorem State.setTxBuf_txb8 (v : Option (Bit × Byte)) : (s.setTxBuf v).txb8 = s.txb8 := rfl
@[simp] theorem State.setTxBuf_ursel (v : Option (Bit × Byte)) : (s.setTxBuf v).ursel = s.ursel := rfl
@[simp] theorem State.setTxBuf_umsel (v : Option (Bit × Byte)) : (s.setTxBuf v).umsel = s.umsel := rfl
@[simp] theorem State.setTxBuf_upm (v : Option (Bit × Byte)) : (s.setTxBuf v).upm = s.upm := rfl
@[simp] theorem State.setTxBuf_usbs (v : Option (Bit × Byte)) : (s.setTxBuf v).usbs = s.usbs := rfl
@[simp] theorem State.setTxBuf_ucsz (v : Option (Bit × Byte)) : (s.setTxBuf v).ucsz = s.ucsz := rfl
@[simp] theorem State.setTxBuf_ucpol (v : Option (Bit × Byte)) : (s.setTxBuf v).ucpol = s.ucpol := rfl
@[simp] theorem State.setTxBuf_ubrr (v : Option (Bit × Byte)) : (s.setTxBuf v).ubrr = s.ubrr := rfl
@[simp] theorem State.setTxBuf_txc (v : Option (Bit × Byte)) : (s.setTxBuf v).txc = s.txc := rfl
@[simp] theorem State.setTxBuf_dor (v : Option (Bit × Byte)) : (s.setTxBuf v).dor = s.dor := rfl
@[simp] theorem State.setTxBuf_txBuf (v : Option (Bit × Byte)) : (s.setTxBuf v).txBuf = v := rfl
@[simp] theorem State.setTxBuf_txShift (v : Option (Bit × Byte)) : (s.setTxBuf v).txShift = s.txShift := rfl
@[simp] theorem State.setTxBuf_rxFifo (v : Option (Bit × Byte)) : (s.setTxBuf v).rxFifo = s.rxFifo := rfl
@[simp] theorem State.setTxBuf_txTrace (v : Option (Bit × Byte)) : (s.setTxBuf v).txTrace = s.txTrace := rfl
@[simp] theorem State.setTxBuf_seq (v : Option (Bit × Byte)) : (s.setTxBuf v).seq = s.seq := rfl
@[simp] theorem State.setTxBuf_result (v : Option (Bit × Byte)) : (s.setTxBuf v).result = s.result := rfl
@[simp] theorem State.setTxBuf_emptyFe (v : Option (Bit × Byte)) : (s.setTxBuf v).emptyFe = s.emptyFe := rfl
@[simp] theorem State.setTxBuf_emptyPe (v : Option (Bit × Byte)) : (s.setTxBuf v).emptyPe = s.emptyPe := rfl
@[simp] theorem State.setTxBuf_emptyRxb8 (v : Option (Bit × Byte)) : (s.setTxBuf v).emptyRxb8 = s.emptyRxb8 := rfl
@[simp] theorem State.setTxBuf_hostQueue (v : Option (Bit × Byte)) : (s.setTxBuf v).hostQueue = s.hostQueue := rfl
@[simp] theorem State.setTxBuf_collected (v : Option (Bit × Byte)) : (s.setTxBuf v).collected = s.collected := rfl
@[simp] theorem State.setTxBuf_script (v : Option (Bit × Byte)) : (s.setTxBuf v).script = s.script := rfl
@[simp] theorem State.setTxBuf_draws (v : Option (Bit × Byte)) : (s.setTxBuf v).draws = s.draws := rfl

/-! ### State.setTxShift -/

@[simp] theorem State.setTxShift_u2x (v : Option TxFrame) : (s.setTxShift v).u2x = s.u2x := rfl
@[simp] theorem State.setTxShift_mpcm (v : Option TxFrame) : (s.setTxShift v).mpcm = s.mpcm := rfl
@[simp] theorem State.setTxShift_rxcie (v : Option TxFrame) : (s.setTxShift v).rxcie = s.rxcie := rfl
@[simp] theorem State.setTxShift_txcie (v : Option TxFrame) : (s.setTxShift v).txcie = s.txcie := rfl
@[simp] theorem State.setTxShift_udrie (v : Option TxFrame) : (s.setTxShift v).udrie = s.udrie := rfl
@[simp] theorem State.setTxShift_rxen (v : Option TxFrame) : (s.setTxShift v).rxen = s.rxen := rfl
@[simp] theorem State.setTxShift_txen (v : Option TxFrame) : (s.setTxShift v).txen = s.txen := rfl
@[simp] theorem State.setTxShift_ucsz2 (v : Option TxFrame) : (s.setTxShift v).ucsz2 = s.ucsz2 := rfl
@[simp] theorem State.setTxShift_txb8 (v : Option TxFrame) : (s.setTxShift v).txb8 = s.txb8 := rfl
@[simp] theorem State.setTxShift_ursel (v : Option TxFrame) : (s.setTxShift v).ursel = s.ursel := rfl
@[simp] theorem State.setTxShift_umsel (v : Option TxFrame) : (s.setTxShift v).umsel = s.umsel := rfl
@[simp] theorem State.setTxShift_upm (v : Option TxFrame) : (s.setTxShift v).upm = s.upm := rfl
@[simp] theorem State.setTxShift_usbs (v : Option TxFrame) : (s.setTxShift v).usbs = s.usbs := rfl
@[simp] theorem State.setTxShift_ucsz (v : Option TxFrame) : (s.setTxShift v).ucsz = s.ucsz := rfl
@[simp] theorem State.setTxShift_ucpol (v : Option TxFrame) : (s.setTxShift v).ucpol = s.ucpol := rfl
@[simp] theorem State.setTxShift_ubrr (v : Option TxFrame) : (s.setTxShift v).ubrr = s.ubrr := rfl
@[simp] theorem State.setTxShift_txc (v : Option TxFrame) : (s.setTxShift v).txc = s.txc := rfl
@[simp] theorem State.setTxShift_dor (v : Option TxFrame) : (s.setTxShift v).dor = s.dor := rfl
@[simp] theorem State.setTxShift_txBuf (v : Option TxFrame) : (s.setTxShift v).txBuf = s.txBuf := rfl
@[simp] theorem State.setTxShift_txShift (v : Option TxFrame) : (s.setTxShift v).txShift = v := rfl
@[simp] theorem State.setTxShift_rxFifo (v : Option TxFrame) : (s.setTxShift v).rxFifo = s.rxFifo := rfl
@[simp] theorem State.setTxShift_txTrace (v : Option TxFrame) : (s.setTxShift v).txTrace = s.txTrace := rfl
@[simp] theorem State.setTxShift_seq (v : Option TxFrame) : (s.setTxShift v).seq = s.seq := rfl
@[simp] theorem State.setTxShift_result (v : Option TxFrame) : (s.setTxShift v).result = s.result := rfl
@[simp] theorem State.setTxShift_emptyFe (v : Option TxFrame) : (s.setTxShift v).emptyFe = s.emptyFe := rfl
@[simp] theorem State.setTxShift_emptyPe (v : Option TxFrame) : (s.setTxShift v).emptyPe = s.emptyPe := rfl
@[simp] theorem State.setTxShift_emptyRxb8 (v : Option TxFrame) : (s.setTxShift v).emptyRxb8 = s.emptyRxb8 := rfl
@[simp] theorem State.setTxShift_hostQueue (v : Option TxFrame) : (s.setTxShift v).hostQueue = s.hostQueue := rfl
@[simp] theorem State.setTxShift_collected (v : Option TxFrame) : (s.setTxShift v).collected = s.collected := rfl
@[simp] theorem State.setTxShift_script (v : Option TxFrame) : (s.setTxShift v).script = s.script := rfl
@[simp] theorem State.setTxShift_draws (v : Option TxFrame) : (s.setTxShift v).draws = s.draws := rfl

/-! ### State.setTxTrace -/

@[simp] theorem State.setTxTrace_u2x (v : List TxFrame) : (s.setTxTrace v).u2x = s.u2x := rfl
@[simp] theorem State.setTxTrace_mpcm (v : List TxFrame) : (s.setTxTrace v).mpcm = s.mpcm := rfl
@[simp] theorem State.setTxTrace_rxcie (v : List TxFrame) : (s.setTxTrace v).rxcie = s.rxcie := rfl
@[simp] theorem State.setTxTrace_txcie (v : List TxFrame) : (s.setTxTrace v).txcie = s.txcie := rfl
@[simp] theorem State.setTxTrace_udrie (v : List TxFrame) : (s.setTxTrace v).udrie = s.udrie := rfl
@[simp] theorem State.setTxTrace_rxen (v : List TxFrame) : (s.setTxTrace v).rxen = s.rxen := rfl
@[simp] theorem State.setTxTrace_txen (v : List TxFrame) : (s.setTxTrace v).txen = s.txen := rfl
@[simp] theorem State.setTxTrace_ucsz2 (v : List TxFrame) : (s.setTxTrace v).ucsz2 = s.ucsz2 := rfl
@[simp] theorem State.setTxTrace_txb8 (v : List TxFrame) : (s.setTxTrace v).txb8 = s.txb8 := rfl
@[simp] theorem State.setTxTrace_ursel (v : List TxFrame) : (s.setTxTrace v).ursel = s.ursel := rfl
@[simp] theorem State.setTxTrace_umsel (v : List TxFrame) : (s.setTxTrace v).umsel = s.umsel := rfl
@[simp] theorem State.setTxTrace_upm (v : List TxFrame) : (s.setTxTrace v).upm = s.upm := rfl
@[simp] theorem State.setTxTrace_usbs (v : List TxFrame) : (s.setTxTrace v).usbs = s.usbs := rfl
@[simp] theorem State.setTxTrace_ucsz (v : List TxFrame) : (s.setTxTrace v).ucsz = s.ucsz := rfl
@[simp] theorem State.setTxTrace_ucpol (v : List TxFrame) : (s.setTxTrace v).ucpol = s.ucpol := rfl
@[simp] theorem State.setTxTrace_ubrr (v : List TxFrame) : (s.setTxTrace v).ubrr = s.ubrr := rfl
@[simp] theorem State.setTxTrace_txc (v : List TxFrame) : (s.setTxTrace v).txc = s.txc := rfl
@[simp] theorem State.setTxTrace_dor (v : List TxFrame) : (s.setTxTrace v).dor = s.dor := rfl
@[simp] theorem State.setTxTrace_txBuf (v : List TxFrame) : (s.setTxTrace v).txBuf = s.txBuf := rfl
@[simp] theorem State.setTxTrace_txShift (v : List TxFrame) : (s.setTxTrace v).txShift = s.txShift := rfl
@[simp] theorem State.setTxTrace_rxFifo (v : List TxFrame) : (s.setTxTrace v).rxFifo = s.rxFifo := rfl
@[simp] theorem State.setTxTrace_txTrace (v : List TxFrame) : (s.setTxTrace v).txTrace = v := rfl
@[simp] theorem State.setTxTrace_seq (v : List TxFrame) : (s.setTxTrace v).seq = s.seq := rfl
@[simp] theorem State.setTxTrace_result (v : List TxFrame) : (s.setTxTrace v).result = s.result := rfl
@[simp] theorem State.setTxTrace_emptyFe (v : List TxFrame) : (s.setTxTrace v).emptyFe = s.emptyFe := rfl
@[simp] theorem State.setTxTrace_emptyPe (v : List TxFrame) : (s.setTxTrace v).emptyPe = s.emptyPe := rfl
@[simp] theorem State.setTxTrace_emptyRxb8 (v : List TxFrame) : (s.setTxTrace v).emptyRxb8 = s.emptyRxb8 := rfl
@[simp] theorem State.setTxTrace_hostQueue (v : List TxFrame) : (s.setTxTrace v).hostQueue = s.hostQueue := rfl
@[simp] theorem State.setTxTrace_collected (v : List TxFrame) : (s.setTxTrace v).collected = s.collected := rfl
@[simp] theorem State.setTxTrace_script (v : List TxFrame) : (s.setTxTrace v).script = s.script := rfl
@[simp] theorem State.setTxTrace_draws (v : List TxFrame) : (s.setTxTrace v).draws = s.draws := rfl

/-! ### State.setRxFifo -/

@[simp] theorem State.setRxFifo_u2x (v : List RxEntry) : (s.setRxFifo v).u2x = s.u2x := rfl
@[simp] theorem State.setRxFifo_mpcm (v : List RxEntry) : (s.setRxFifo v).mpcm = s.mpcm := rfl
@[simp] theorem State.setRxFifo_rxcie (v : List RxEntry) : (s.setRxFifo v).rxcie = s.rxcie := rfl
@[simp] theorem State.setRxFifo_txcie (v : List RxEntry) : (s.setRxFifo v).txcie = s.txcie := rfl
@[simp] theorem State.setRxFifo_udrie (v : List RxEntry) : (s.setRxFifo v).udrie = s.udrie := rfl
@[simp] theorem State.setRxFifo_rxen (v : List RxEntry) : (s.setRxFifo v).rxen = s.rxen := rfl
@[simp] theorem State.setRxFifo_txen (v : List RxEntry) : (s.setRxFifo v).txen = s.txen := rfl
@[simp] theorem State.setRxFifo_ucsz2 (v : List RxEntry) : (s.setRxFifo v).ucsz2 = s.ucsz2 := rfl
@[simp] theorem State.setRxFifo_txb8 (v : List RxEntry) : (s.setRxFifo v).txb8 = s.txb8 := rfl
@[simp] theorem State.setRxFifo_ursel (v : List RxEntry) : (s.setRxFifo v).ursel = s.ursel := rfl
@[simp] theorem State.setRxFifo_umsel (v : List RxEntry) : (s.setRxFifo v).umsel = s.umsel := rfl
@[simp] theorem State.setRxFifo_upm (v : List RxEntry) : (s.setRxFifo v).upm = s.upm := rfl
@[simp] theorem State.setRxFifo_usbs (v : List RxEntry) : (s.setRxFifo v).usbs = s.usbs := rfl
@[simp] theorem State.setRxFifo_ucsz (v : List RxEntry) : (s.setRxFifo v).ucsz = s.ucsz := rfl
@[simp] theorem State.setRxFifo_ucpol (v : List RxEntry) : (s.setRxFifo v).ucpol = s.ucpol := rfl
@[simp] theorem State.setRxFifo_ubrr (v : List RxEntry) : (s.setRxFifo v).ubrr = s.ubrr := rfl
@[simp] theorem State.setRxFifo_txc (v : List RxEntry) : (s.setRxFifo v).txc = s.txc := rfl
@[simp] theorem State.setRxFifo_dor (v : List RxEntry) : (s.setRxFifo v).dor = s.dor := rfl
@[simp] theorem State.setRxFifo_txBuf (v : List RxEntry) : (s.setRxFifo v).txBuf = s.txBuf := rfl
@[simp] theorem State.setRxFifo_txShift (v : List RxEntry) : (s.setRxFifo v).txShift = s.txShift := rfl
@[simp] theorem State.setRxFifo_rxFifo (v : List RxEntry) : (s.setRxFifo v).rxFifo = v := rfl
@[simp] theorem State.setRxFifo_txTrace (v : List RxEntry) : (s.setRxFifo v).txTrace = s.txTrace := rfl
@[simp] theorem State.setRxFifo_seq (v : List RxEntry) : (s.setRxFifo v).seq = s.seq := rfl
@[simp] theorem State.setRxFifo_result (v : List RxEntry) : (s.setRxFifo v).result = s.result := rfl
@[simp] theorem State.setRxFifo_emptyFe (v : List RxEntry) : (s.setRxFifo v).emptyFe = s.emptyFe := rfl
@[simp] theorem State.setRxFifo_emptyPe (v : List RxEntry) : (s.setRxFifo v).emptyPe = s.emptyPe := rfl
@[simp] theorem State.setRxFifo_emptyRxb8 (v : List RxEntry) : (s.setRxFifo v).emptyRxb8 = s.emptyRxb8 := rfl
@[simp] theorem State.setRxFifo_hostQueue (v : List RxEntry) : (s.setRxFifo v).hostQueue = s.hostQueue := rfl
@[simp] theorem State.setRxFifo_collected (v : List RxEntry) : (s.setRxFifo v).collected = s.collected := rfl
@[simp] theorem State.setRxFifo_script (v : List RxEntry) : (s.setRxFifo v).script = s.script := rfl
@[simp] theorem State.setRxFifo_draws (v : List RxEntry) : (s.setRxFifo v).draws = s.draws := rfl

/-! ### State.setSeq -/

@[simp] theorem State.setSeq_u2x (v : Seq) : (s.setSeq v).u2x = s.u2x := rfl
@[simp] theorem State.setSeq_mpcm (v : Seq) : (s.setSeq v).mpcm = s.mpcm := rfl
@[simp] theorem State.setSeq_rxcie (v : Seq) : (s.setSeq v).rxcie = s.rxcie := rfl
@[simp] theorem State.setSeq_txcie (v : Seq) : (s.setSeq v).txcie = s.txcie := rfl
@[simp] theorem State.setSeq_udrie (v : Seq) : (s.setSeq v).udrie = s.udrie := rfl
@[simp] theorem State.setSeq_rxen (v : Seq) : (s.setSeq v).rxen = s.rxen := rfl
@[simp] theorem State.setSeq_txen (v : Seq) : (s.setSeq v).txen = s.txen := rfl
@[simp] theorem State.setSeq_ucsz2 (v : Seq) : (s.setSeq v).ucsz2 = s.ucsz2 := rfl
@[simp] theorem State.setSeq_txb8 (v : Seq) : (s.setSeq v).txb8 = s.txb8 := rfl
@[simp] theorem State.setSeq_ursel (v : Seq) : (s.setSeq v).ursel = s.ursel := rfl
@[simp] theorem State.setSeq_umsel (v : Seq) : (s.setSeq v).umsel = s.umsel := rfl
@[simp] theorem State.setSeq_upm (v : Seq) : (s.setSeq v).upm = s.upm := rfl
@[simp] theorem State.setSeq_usbs (v : Seq) : (s.setSeq v).usbs = s.usbs := rfl
@[simp] theorem State.setSeq_ucsz (v : Seq) : (s.setSeq v).ucsz = s.ucsz := rfl
@[simp] theorem State.setSeq_ucpol (v : Seq) : (s.setSeq v).ucpol = s.ucpol := rfl
@[simp] theorem State.setSeq_ubrr (v : Seq) : (s.setSeq v).ubrr = s.ubrr := rfl
@[simp] theorem State.setSeq_txc (v : Seq) : (s.setSeq v).txc = s.txc := rfl
@[simp] theorem State.setSeq_dor (v : Seq) : (s.setSeq v).dor = s.dor := rfl
@[simp] theorem State.setSeq_txBuf (v : Seq) : (s.setSeq v).txBuf = s.txBuf := rfl
@[simp] theorem State.setSeq_txShift (v : Seq) : (s.setSeq v).txShift = s.txShift := rfl
@[simp] theorem State.setSeq_rxFifo (v : Seq) : (s.setSeq v).rxFifo = s.rxFifo := rfl
@[simp] theorem State.setSeq_txTrace (v : Seq) : (s.setSeq v).txTrace = s.txTrace := rfl
@[simp] theorem State.setSeq_seq (v : Seq) : (s.setSeq v).seq = v := rfl
@[simp] theorem State.setSeq_result (v : Seq) : (s.setSeq v).result = s.result := rfl
@[simp] theorem State.setSeq_emptyFe (v : Seq) : (s.setSeq v).emptyFe = s.emptyFe := rfl
@[simp] theorem State.setSeq_emptyPe (v : Seq) : (s.setSeq v).emptyPe = s.emptyPe := rfl
@[simp] theorem State.setSeq_emptyRxb8 (v : Seq) : (s.setSeq v).emptyRxb8 = s.emptyRxb8 := rfl
@[simp] theorem State.setSeq_hostQueue (v : Seq) : (s.setSeq v).hostQueue = s.hostQueue := rfl
@[simp] theorem State.setSeq_collected (v : Seq) : (s.setSeq v).collected = s.collected := rfl
@[simp] theorem State.setSeq_script (v : Seq) : (s.setSeq v).script = s.script := rfl
@[simp] theorem State.setSeq_draws (v : Seq) : (s.setSeq v).draws = s.draws := rfl

/-! ### State.setResult -/

@[simp] theorem State.setResult_u2x (v : Option ResultWord) : (s.setResult v).u2x = s.u2x := rfl
@[simp] theorem State.setResult_mpcm (v : Option ResultWord) : (s.setResult v).mpcm = s.mpcm := rfl
@[simp] theorem State.setResult_rxcie (v : Option ResultWord) : (s.setResult v).rxcie = s.rxcie := rfl
@[simp] theorem State.setResult_txcie (v : Option ResultWord) : (s.setResult v).txcie = s.txcie := rfl
@[simp] theorem State.setResult_udrie (v : Option ResultWord) : (s.setResult v).udrie = s.udrie := rfl
@[simp] theorem State.setResult_rxen (v : Option ResultWord) : (s.setResult v).rxen = s.rxen := rfl
@[simp] theorem State.setResult_txen (v : Option ResultWord) : (s.setResult v).txen = s.txen := rfl
@[simp] theorem State.setResult_ucsz2 (v : Option ResultWord) : (s.setResult v).ucsz2 = s.ucsz2 := rfl
@[simp] theorem State.setResult_txb8 (v : Option ResultWord) : (s.setResult v).txb8 = s.txb8 := rfl
@[simp] theorem State.setResult_ursel (v : Option ResultWord) : (s.setResult v).ursel = s.ursel := rfl
@[simp] theorem State.setResult_umsel (v : Option ResultWord) : (s.setResult v).umsel = s.umsel := rfl
@[simp] theorem State.setResult_upm (v : Option ResultWord) : (s.setResult v).upm = s.upm := rfl
@[simp] theorem State.setResult_usbs (v : Option ResultWord) : (s.setResult v).usbs = s.usbs := rfl
@[simp] theorem State.setResult_ucsz (v : Option ResultWord) : (s.setResult v).ucsz = s.ucsz := rfl
@[simp] theorem State.setResult_ucpol (v : Option ResultWord) : (s.setResult v).ucpol = s.ucpol := rfl
@[simp] theorem State.setResult_ubrr (v : Option ResultWord) : (s.setResult v).ubrr = s.ubrr := rfl
@[simp] theorem State.setResult_txc (v : Option ResultWord) : (s.setResult v).txc = s.txc := rfl
@[simp] theorem State.setResult_dor (v : Option ResultWord) : (s.setResult v).dor = s.dor := rfl
@[simp] theorem State.setResult_txBuf (v : Option ResultWord) : (s.setResult v).txBuf = s.txBuf := rfl
@[simp] theorem State.setResult_txShift (v : Option ResultWord) : (s.setResult v).txShift = s.txShift := rfl
@[simp] theorem State.setResult_rxFifo (v : Option ResultWord) : (s.setResult v).rxFifo = s.rxFifo := rfl
@[simp] theorem State.setResult_txTrace (v : Option ResultWord) : (s.setResult v).txTrace = s.txTrace := rfl
@[simp] theorem State.setResult_seq (v : Option ResultWord) : (s.setResult v).seq = s.seq := rfl
@[simp] theorem State.setResult_result (v : Option ResultWord) : (s.setResult v).result = v := rfl
@[simp] theorem State.setResult_emptyFe (v : Option ResultWord) : (s.setResult v).emptyFe = s.emptyFe := rfl
@[simp] theorem State.setResult_emptyPe (v : Option ResultWord) : (s.setResult v).emptyPe = s.emptyPe := rfl
@[simp] theorem State.setResult_emptyRxb8 (v : Option ResultWord) : (s.setResult v).emptyRxb8 = s.emptyRxb8 := rfl
@[simp] theorem State.setResult_hostQueue (v : Option ResultWord) : (s.setResult v).hostQueue = s.hostQueue := rfl
@[simp] theorem State.setResult_collected (v : Option ResultWord) : (s.setResult v).collected = s.collected := rfl
@[simp] theorem State.setResult_script (v : Option ResultWord) : (s.setResult v).script = s.script := rfl
@[simp] theorem State.setResult_draws (v : Option ResultWord) : (s.setResult v).draws = s.draws := rfl

/-! ### State.setHostQueue -/

@[simp] theorem State.setHostQueue_u2x (v : List CmdWord) : (s.setHostQueue v).u2x = s.u2x := rfl
@[simp] theorem State.setHostQueue_mpcm (v : List CmdWord) : (s.setHostQueue v).mpcm = s.mpcm := rfl
@[simp] theorem State.setHostQueue_rxcie (v : List CmdWord) : (s.setHostQueue v).rxcie = s.rxcie := rfl
@[simp] theorem State.setHostQueue_txcie (v : List CmdWord) : (s.setHostQueue v).txcie = s.txcie := rfl
@[simp] theorem State.setHostQueue_udrie (v : List CmdWord) : (s.setHostQueue v).udrie = s.udrie := rfl
@[simp] theorem State.setHostQueue_rxen (v : List CmdWord) : (s.setHostQueue v).rxen = s.rxen := rfl
@[simp] theorem State.setHostQueue_txen (v : List CmdWord) : (s.setHostQueue v).txen = s.txen := rfl
@[simp] theorem State.setHostQueue_ucsz2 (v : List CmdWord) : (s.setHostQueue v).ucsz2 = s.ucsz2 := rfl
@[simp] theorem State.setHostQueue_txb8 (v : List CmdWord) : (s.setHostQueue v).txb8 = s.txb8 := rfl
@[simp] theorem State.setHostQueue_ursel (v : List CmdWord) : (s.setHostQueue v).ursel = s.ursel := rfl
@[simp] theorem State.setHostQueue_umsel (v : List CmdWord) : (s.setHostQueue v).umsel = s.umsel := rfl
@[simp] theorem State.setHostQueue_upm (v : List CmdWord) : (s.setHostQueue v).upm = s.upm := rfl
@[simp] theorem State.setHostQueue_usbs (v : List CmdWord) : (s.setHostQueue v).usbs = s.usbs := rfl
@[simp] theorem State.setHostQueue_ucsz (v : List CmdWord) : (s.setHostQueue v).ucsz = s.ucsz := rfl
@[simp] theorem State.setHostQueue_ucpol (v : List CmdWord) : (s.setHostQueue v).ucpol = s.ucpol := rfl
@[simp] theorem State.setHostQueue_ubrr (v : List CmdWord) : (s.setHostQueue v).ubrr = s.ubrr := rfl
@[simp] theorem State.setHostQueue_txc (v : List CmdWord) : (s.setHostQueue v).txc = s.txc := rfl
@[simp] theorem State.setHostQueue_dor (v : List CmdWord) : (s.setHostQueue v).dor = s.dor := rfl
@[simp] theorem State.setHostQueue_txBuf (v : List CmdWord) : (s.setHostQueue v).txBuf = s.txBuf := rfl
@[simp] theorem State.setHostQueue_txShift (v : List CmdWord) : (s.setHostQueue v).txShift = s.txShift := rfl
@[simp] theorem State.setHostQueue_rxFifo (v : List CmdWord) : (s.setHostQueue v).rxFifo = s.rxFifo := rfl
@[simp] theorem State.setHostQueue_txTrace (v : List CmdWord) : (s.setHostQueue v).txTrace = s.txTrace := rfl
@[simp] theorem State.setHostQueue_seq (v : List CmdWord) : (s.setHostQueue v).seq = s.seq := rfl
@[simp] theorem State.setHostQueue_result (v : List CmdWord) : (s.setHostQueue v).result = s.result := rfl
@[simp] theorem State.setHostQueue_emptyFe (v : List CmdWord) : (s.setHostQueue v).emptyFe = s.emptyFe := rfl
@[simp] theorem State.setHostQueue_emptyPe (v : List CmdWord) : (s.setHostQueue v).emptyPe = s.emptyPe := rfl
@[simp] theorem State.setHostQueue_emptyRxb8 (v : List CmdWord) : (s.setHostQueue v).emptyRxb8 = s.emptyRxb8 := rfl
@[simp] theorem State.setHostQueue_hostQueue (v : List CmdWord) : (s.setHostQueue v).hostQueue = v := rfl
@[simp] theorem State.setHostQueue_collected (v : List CmdWord) : (s.setHostQueue v).collected = s.collected := rfl
@[simp] theorem State.setHostQueue_script (v : List CmdWord) : (s.setHostQueue v).script = s.script := rfl
@[simp] theorem State.setHostQueue_draws (v : List CmdWord) : (s.setHostQueue v).draws = s.draws := rfl

/-! ### State.setCollected -/

@[simp] theorem State.setCollected_u2x (v : List ResultWord) : (s.setCollected v).u2x = s.u2x := rfl
@[simp] theorem State.setCollected_mpcm (v : List ResultWord) : (s.setCollected v).mpcm = s.mpcm := rfl
@[simp] theorem State.setCollected_rxcie (v : List ResultWord) : (s.setCollected v).rxcie = s.rxcie := rfl
@[simp] theorem State.setCollected_txcie (v : List ResultWord) : (s.setCollected v).txcie = s.txcie := rfl
@[simp] theorem State.setCollected_udrie (v : List ResultWord) : (s.setCollected v).udrie = s.udrie := rfl
@[simp] theorem State.setCollected_rxen (v : List ResultWord) : (s.setCollected v).rxen = s.rxen := rfl
@[simp] theorem State.setCollected_txen (v : List ResultWord) : (s.setCollected v).txen = s.txen := rfl
@[simp] theorem State.setCollected_ucsz2 (v : List ResultWord) : (s.setCollected v).ucsz2 = s.ucsz2 := rfl
@[simp] theorem State.setCollected_txb8 (v : List ResultWord) : (s.setCollected v).txb8 = s.txb8 := rfl
@[simp] theorem State.setCollected_ursel (v : List ResultWord) : (s.setCollected v).ursel = s.ursel := rfl
@[simp] theorem State.setCollected_umsel (v : List ResultWord) : (s.setCollected v).umsel = s.umsel := rfl
@[simp] theorem State.setCollected_upm (v : List ResultWord) : (s.setCollected v).upm = s.upm := rfl
@[simp] theorem State.setCollected_usbs (v : List ResultWord) : (s.setCollected v).usbs = s.usbs := rfl
@[simp] theorem State.setCollected_ucsz (v : List ResultWord) : (s.setCollected v).ucsz = s.ucsz := rfl
@[simp] theorem State.setCollected_ucpol (v : List ResultWord) : (s.setCollected v).ucpol = s.ucpol := rfl
@[simp] theorem State.setCollected_ubrr (v : List ResultWord) : (s.setCollected v).ubrr = s.ubrr := rfl
@[simp] theorem State.setCollected_txc (v : List ResultWord) : (s.setCollected v).txc = s.txc := rfl
@[simp] theorem State.setCollected_dor (v : List ResultWord) : (s.setCollected v).dor = s.dor := rfl
@[simp] theorem State.setCollected_txBuf (v : List ResultWord) : (s.setCollected v).txBuf = s.txBuf := rfl
@[simp] theorem State.setCollected_txShift (v : List ResultWord) : (s.setCollected v).txShift = s.txShift := rfl
@[simp] theorem State.setCollected_rxFifo (v : List ResultWord) : (s.setCollected v).rxFifo = s.rxFifo := rfl
@[simp] theorem State.setCollected_txTrace (v : List ResultWord) : (s.setCollected v).txTrace = s.txTrace := rfl
@[simp] theorem State.setCollected_seq (v : List ResultWord) : (s.setCollected v).seq = s.seq := rfl
@[simp] theorem State.setCollected_result (v : List ResultWord) : (s.setCollected v).result = s.result := rfl
@[simp] theorem State.setCollected_emptyFe (v : List ResultWord) : (s.setCollected v).emptyFe = s.emptyFe := rfl
@[simp] theorem State.setCollected_emptyPe (v : List ResultWord) : (s.setCollected v).emptyPe = s.emptyPe := rfl
@[simp] theorem State.setCollected_emptyRxb8 (v : List ResultWord) : (s.setCollected v).emptyRxb8 = s.emptyRxb8 := rfl
@[simp] theorem State.setCollected_hostQueue (v : List ResultWord) : (s.setCollected v).hostQueue = s.hostQueue := rfl
@[simp] theorem State.setCollected_collected (v : List ResultWord) : (s.setCollected v).collected = v := rfl
@[simp] theorem State.setCollected_script (v : List ResultWord) : (s.setCollected v).script = s.script := rfl
@[simp] theorem State.setCollected_draws (v : List ResultWord) : (s.setCollected v).draws = s.draws := rfl

/-! ### State.redrawEmptyView -/

@[simp] theorem State.redrawEmptyView_u2x : s.redrawEmptyView.u2x = s.u2x := rfl
@[simp] theorem State.redrawEmptyView_mpcm : s.redrawEmptyView.mpcm = s.mpcm := rfl
@[simp] theorem State.redrawEmptyView_rxcie : s.redrawEmptyView.rxcie = s.rxcie := rfl
@[simp] theorem State.redrawEmptyView_txcie : s.redrawEmptyView.txcie = s.txcie := rfl
@[simp] theorem State.redrawEmptyView_udrie : s.redrawEmptyView.udrie = s.udrie := rfl
@[simp] theorem State.redrawEmptyView_rxen : s.redrawEmptyView.rxen = s.rxen := rfl
@[simp] theorem State.redrawEmptyView_txen : s.redrawEmptyView.txen = s.txen := rfl
@[simp] theorem State.redrawEmptyView_ucsz2 : s.redrawEmptyView.ucsz2 = s.ucsz2 := rfl
@[simp] theorem State.redrawEmptyView_txb8 : s.redrawEmptyView.txb8 = s.txb8 := rfl
@[simp] theorem State.redrawEmptyView_ursel : s.redrawEmptyView.ursel = s.ursel := rfl
@[simp] theorem State.redrawEmptyView_umsel : s.redrawEmptyView.umsel = s.umsel := rfl
@[simp] theorem State.redrawEmptyView_upm : s.redrawEmptyView.upm = s.upm := rfl
@[simp] theorem State.redrawEmptyView_usbs : s.redrawEmptyView.usbs = s.usbs := rfl
@[simp] theorem State.redrawEmptyView_ucsz : s.redrawEmptyView.ucsz = s.ucsz := rfl
@[simp] theorem State.redrawEmptyView_ucpol : s.redrawEmptyView.ucpol = s.ucpol := rfl
@[simp] theorem State.redrawEmptyView_ubrr : s.redrawEmptyView.ubrr = s.ubrr := rfl
@[simp] theorem State.redrawEmptyView_txc : s.redrawEmptyView.txc = s.txc := rfl
@[simp] theorem State.redrawEmptyView_dor : s.redrawEmptyView.dor = s.dor := rfl
@[simp] theorem State.redrawEmptyView_txBuf : s.redrawEmptyView.txBuf = s.txBuf := rfl
@[simp] theorem State.redrawEmptyView_txShift : s.redrawEmptyView.txShift = s.txShift := rfl
@[simp] theorem State.redrawEmptyView_rxFifo : s.redrawEmptyView.rxFifo = s.rxFifo := rfl
@[simp] theorem State.redrawEmptyView_txTrace : s.redrawEmptyView.txTrace = s.txTrace := rfl
@[simp] theorem State.redrawEmptyView_seq : s.redrawEmptyView.seq = s.seq := rfl
@[simp] theorem State.redrawEmptyView_result : s.redrawEmptyView.result = s.result := rfl
@[simp] theorem State.redrawEmptyView_emptyFe : s.redrawEmptyView.emptyFe = (Config.emptyFlags s.draws).getLsbD 2 := rfl
@[simp] theorem State.redrawEmptyView_emptyPe : s.redrawEmptyView.emptyPe = (Config.emptyFlags s.draws).getLsbD 1 := rfl
@[simp] theorem State.redrawEmptyView_emptyRxb8 : s.redrawEmptyView.emptyRxb8 = (Config.emptyFlags s.draws).getLsbD 0 := rfl
@[simp] theorem State.redrawEmptyView_hostQueue : s.redrawEmptyView.hostQueue = s.hostQueue := rfl
@[simp] theorem State.redrawEmptyView_collected : s.redrawEmptyView.collected = s.collected := rfl
@[simp] theorem State.redrawEmptyView_script : s.redrawEmptyView.script = s.script := rfl
@[simp] theorem State.redrawEmptyView_draws : s.redrawEmptyView.draws = s.draws + 1 := rfl

end Sys2Proof.Machine
end

