-- ==== Sys2Proof/Laws/Ops.lean ====
section
/-! SUPPORT. One lemma for each shared operation that says everything it can do; the provers cite these
and need not unfold the operations. -/

namespace Sys2Proof.Machine

variable {s t : State}

/-! ### The ends of a command -/

@[simp] theorem complete_eq (s : State) : complete s = s.setSeq .idle := rfl

@[simp] theorem raiseFault_eq (c : FaultCode) (w : CmdWord) (s : State) :
    raiseFault c w s = s.setSeq (.faulted c w) := rfl

@[simp] theorem udrWrite_eq (d : Byte) (s : State) :
    udrWrite d s = s.setTxBuf (some (s.txb8, d)) := rfl

/-! ### The receive buffer -/

@[simp] theorem replaceRx_u2x (s : State) (r : List RxEntry) : (s.replaceRx r).u2x = s.u2x := by
  unfold State.replaceRx; split <;> rfl

@[simp] theorem replaceRx_mpcm (s : State) (r : List RxEntry) : (s.replaceRx r).mpcm = s.mpcm := by
  unfold State.replaceRx; split <;> rfl

@[simp] theorem replaceRx_rxcie (s : State) (r : List RxEntry) : (s.replaceRx r).rxcie = s.rxcie := by
  unfold State.replaceRx; split <;> rfl

@[simp] theorem replaceRx_txcie (s : State) (r : List RxEntry) : (s.replaceRx r).txcie = s.txcie := by
  unfold State.replaceRx; split <;> rfl

@[simp] theorem replaceRx_udrie (s : State) (r : List RxEntry) : (s.replaceRx r).udrie = s.udrie := by
  unfold State.replaceRx; split <;> rfl

@[simp] theorem replaceRx_rxen (s : State) (r : List RxEntry) : (s.replaceRx r).rxen = s.rxen := by
  unfold State.replaceRx; split <;> rfl

@[simp] theorem replaceRx_txen (s : State) (r : List RxEntry) : (s.replaceRx r).txen = s.txen := by
  unfold State.replaceRx; split <;> rfl

@[simp] theorem replaceRx_ucsz2 (s : State) (r : List RxEntry) : (s.replaceRx r).ucsz2 = s.ucsz2 := by
  unfold State.replaceRx; split <;> rfl

@[simp] theorem replaceRx_txb8 (s : State) (r : List RxEntry) : (s.replaceRx r).txb8 = s.txb8 := by
  unfold State.replaceRx; split <;> rfl

@[simp] theorem replaceRx_ursel (s : State) (r : List RxEntry) : (s.replaceRx r).ursel = s.ursel := by
  unfold State.replaceRx; split <;> rfl

@[simp] theorem replaceRx_umsel (s : State) (r : List RxEntry) : (s.replaceRx r).umsel = s.umsel := by
  unfold State.replaceRx; split <;> rfl

@[simp] theorem replaceRx_upm (s : State) (r : List RxEntry) : (s.replaceRx r).upm = s.upm := by
  unfold State.replaceRx; split <;> rfl

@[simp] theorem replaceRx_usbs (s : State) (r : List RxEntry) : (s.replaceRx r).usbs = s.usbs := by
  unfold State.replaceRx; split <;> rfl

@[simp] theorem replaceRx_ucsz (s : State) (r : List RxEntry) : (s.replaceRx r).ucsz = s.ucsz := by
  unfold State.replaceRx; split <;> rfl

@[simp] theorem replaceRx_ucpol (s : State) (r : List RxEntry) : (s.replaceRx r).ucpol = s.ucpol := by
  unfold State.replaceRx; split <;> rfl

@[simp] theorem replaceRx_ubrr (s : State) (r : List RxEntry) : (s.replaceRx r).ubrr = s.ubrr := by
  unfold State.replaceRx; split <;> rfl

@[simp] theorem replaceRx_txc (s : State) (r : List RxEntry) : (s.replaceRx r).txc = s.txc := by
  unfold State.replaceRx; split <;> rfl

@[simp] theorem replaceRx_dor (s : State) (r : List RxEntry) : (s.replaceRx r).dor = s.dor := by
  unfold State.replaceRx; split <;> rfl

@[simp] theorem replaceRx_txBuf (s : State) (r : List RxEntry) : (s.replaceRx r).txBuf = s.txBuf := by
  unfold State.replaceRx; split <;> rfl

@[simp] theorem replaceRx_txShift (s : State) (r : List RxEntry) : (s.replaceRx r).txShift = s.txShift := by
  unfold State.replaceRx; split <;> rfl

@[simp] theorem replaceRx_txTrace (s : State) (r : List RxEntry) : (s.replaceRx r).txTrace = s.txTrace := by
  unfold State.replaceRx; split <;> rfl

@[simp] theorem replaceRx_seq (s : State) (r : List RxEntry) : (s.replaceRx r).seq = s.seq := by
  unfold State.replaceRx; split <;> rfl

@[simp] theorem replaceRx_result (s : State) (r : List RxEntry) : (s.replaceRx r).result = s.result := by
  unfold State.replaceRx; split <;> rfl

@[simp] theorem replaceRx_hostQueue (s : State) (r : List RxEntry) : (s.replaceRx r).hostQueue = s.hostQueue := by
  unfold State.replaceRx; split <;> rfl

@[simp] theorem replaceRx_collected (s : State) (r : List RxEntry) : (s.replaceRx r).collected = s.collected := by
  unfold State.replaceRx; split <;> rfl

@[simp] theorem replaceRx_script (s : State) (r : List RxEntry) : (s.replaceRx r).script = s.script := by
  unfold State.replaceRx; split <;> rfl

@[simp] theorem replaceRx_rxFifo (s : State) (r : List RxEntry) : (s.replaceRx r).rxFifo = r := by
  unfold State.replaceRx; split <;> rfl

/-- Replacing the receive buffer changes it, the views of an empty buffer and the count of draws only. -/
theorem replaceRx_frame (s : State) (r : List RxEntry) :
    s.replaceRx r = { s with
      rxFifo := r, emptyFe := (s.replaceRx r).emptyFe, emptyPe := (s.replaceRx r).emptyPe,
      emptyRxb8 := (s.replaceRx r).emptyRxb8, draws := (s.replaceRx r).draws } := by
  unfold State.replaceRx; split <;> rfl

/-- UDR_read answers exactly while RXC = 1: it takes the head and clears DOR. -/
theorem udrRead_eq_some {h : RxEntry} :
    udrRead s = some (h, t) ↔
      ∃ rest, s.rxFifo = h :: rest ∧ t = (s.setDor false).replaceRx rest := by
  unfold udrRead
  split
  · simp [*]
  · rename_i h' rest hs
    simp only [Option.some.injEq, Prod.mk.injEq, hs, List.cons.injEq]
    constructor
    · rintro ⟨rfl, rfl⟩; exact ⟨rest, ⟨rfl, rfl⟩, rfl⟩
    · rintro ⟨_, ⟨rfl, rfl⟩, rfl⟩; exact ⟨rfl, rfl⟩

/-- A receive command waits on an empty buffer, and otherwise delivers its result for the head. -/
theorem receive_next {r : State → RxEntry → ResultWord} (hn : receive r s = .next t) :
    (s.rxFifo = [] ∧ t = s) ∨
      ∃ h rest, s.rxFifo = h :: rest ∧
        t = (((s.setDor false).replaceRx rest).setResult (some (r s h))).setSeq .idle := by
  unfold receive udrRead at hn
  split at hn
  · rename_i hs; left; split at hs <;> simp_all
  · rename_i h t' hs
    right
    split at hs
    · cases hs
    · rename_i h' rest hf
      cases hs; cases hn
      exact ⟨_, _, hf, rfl⟩

/-- A receive command with a frame at the head. -/
theorem receive_cons {r : State → RxEntry → ResultWord} {h : RxEntry} {rest : List RxEntry}
    (hs : s.rxFifo = h :: rest) :
    receive r s =
      .next ((((s.setDor false).replaceRx rest).setResult (some (r s h))).setSeq .idle) := by
  simp [receive, udrRead, hs]

/-- A receive command on an empty buffer holds. -/
theorem receive_nil {r : State → RxEntry → ResultWord} (hs : s.rxFifo = []) :
    receive r s = .next s := by
  simp [receive, udrRead, hs]

/-! ### The transmit hold -/

/-- A transmit command waits on a full buffer, and otherwise acts and completes. -/
theorem holdUntilUdre_next {act : State → State} (hn : holdUntilUdre act s = .next t) :
    (s.txBuf ≠ none ∧ t = s) ∨ (s.txBuf = none ∧ t = (act s).setSeq .idle) := by
  unfold holdUntilUdre at hn
  split at hn <;> cases hn <;> simp [*]

theorem holdUntilUdre_none {act : State → State} (hs : s.txBuf = none) :
    holdUntilUdre act s = .next ((act s).setSeq .idle) := by
  simp [holdUntilUdre, hs]

theorem holdUntilUdre_some {act : State → State} (hs : s.txBuf ≠ none) :
    holdUntilUdre act s = .next s := by
  unfold holdUntilUdre; split <;> simp_all

/-! ### The receive flush -/

@[simp] theorem flushIfDisabled_u2x (b : Bool) (e : Bit) (s : State) :
    (flushIfDisabled b e s).u2x = s.u2x := by
  unfold flushIfDisabled; split <;> simp

@[simp] theorem flushIfDisabled_mpcm (b : Bool) (e : Bit) (s : State) :
    (flushIfDisabled b e s).mpcm = s.mpcm := by
  unfold flushIfDisabled; split <;> simp

@[simp] theorem flushIfDisabled_rxcie (b : Bool) (e : Bit) (s : State) :
    (flushIfDisabled b e s).rxcie = s.rxcie := by
  unfold flushIfDisabled; split <;> simp

@[simp] theorem flushIfDisabled_txcie (b : Bool) (e : Bit) (s : State) :
    (flushIfDisabled b e s).txcie = s.txcie := by
  unfold flushIfDisabled; split <;> simp

@[simp] theorem flushIfDisabled_udrie (b : Bool) (e : Bit) (s : State) :
    (flushIfDisabled b e s).udrie = s.udrie := by
  unfold flushIfDisabled; split <;> simp

@[simp] theorem flushIfDisabled_rxen (b : Bool) (e : Bit) (s : State) :
    (flushIfDisabled b e s).rxen = s.rxen := by
  unfold flushIfDisabled; split <;> simp

@[simp] theorem flushIfDisabled_txen (b : Bool) (e : Bit) (s : State) :
    (flushIfDisabled b e s).txen = s.txen := by
  unfold flushIfDisabled; split <;> simp

@[simp] theorem flushIfDisabled_ucsz2 (b : Bool) (e : Bit) (s : State) :
    (flushIfDisabled b e s).ucsz2 = s.ucsz2 := by
  unfold flushIfDisabled; split <;> simp

@[simp] theorem flushIfDisabled_txb8 (b : Bool) (e : Bit) (s : State) :
    (flushIfDisabled b e s).txb8 = s.txb8 := by
  unfold flushIfDisabled; split <;> simp

@[simp] theorem flushIfDisabled_ursel (b : Bool) (e : Bit) (s : State) :
    (flushIfDisabled b e s).ursel = s.ursel := by
  unfold flushIfDisabled; split <;> simp

@[simp] theorem flushIfDisabled_umsel (b : Bool) (e : Bit) (s : State) :
    (flushIfDisabled b e s).umsel = s.umsel := by
  unfold flushIfDisabled; split <;> simp

@[simp] theorem flushIfDisabled_upm (b : Bool) (e : Bit) (s : State) :
    (flushIfDisabled b e s).upm = s.upm := by
  unfold flushIfDisabled; split <;> simp

@[simp] theorem flushIfDisabled_usbs (b : Bool) (e : Bit) (s : State) :
    (flushIfDisabled b e s).usbs = s.usbs := by
  unfold flushIfDisabled; split <;> simp

@[simp] theorem flushIfDisabled_ucsz (b : Bool) (e : Bit) (s : State) :
    (flushIfDisabled b e s).ucsz = s.ucsz := by
  unfold flushIfDisabled; split <;> simp

@[simp] theorem flushIfDisabled_ucpol (b : Bool) (e : Bit) (s : State) :
    (flushIfDisabled b e s).ucpol = s.ucpol := by
  unfold flushIfDisabled; split <;> simp

@[simp] theorem flushIfDisabled_ubrr (b : Bool) (e : Bit) (s : State) :
    (flushIfDisabled b e s).ubrr = s.ubrr := by
  unfold flushIfDisabled; split <;> simp

@[simp] theorem flushIfDisabled_txc (b : Bool) (e : Bit) (s : State) :
    (flushIfDisabled b e s).txc = s.txc := by
  unfold flushIfDisabled; split <;> simp

@[simp] theorem flushIfDisabled_dor (b : Bool) (e : Bit) (s : State) :
    (flushIfDisabled b e s).dor = s.dor := by
  unfold flushIfDisabled; split <;> simp

@[simp] theorem flushIfDisabled_txBuf (b : Bool) (e : Bit) (s : State) :
    (flushIfDisabled b e s).txBuf = s.txBuf := by
  unfold flushIfDisabled; split <;> simp

@[simp] theorem flushIfDisabled_txShift (b : Bool) (e : Bit) (s : State) :
    (flushIfDisabled b e s).txShift = s.txShift := by
  unfold flushIfDisabled; split <;> simp

@[simp] theorem flushIfDisabled_txTrace (b : Bool) (e : Bit) (s : State) :
    (flushIfDisabled b e s).txTrace = s.txTrace := by
  unfold flushIfDisabled; split <;> simp

@[simp] theorem flushIfDisabled_seq (b : Bool) (e : Bit) (s : State) :
    (flushIfDisabled b e s).seq = s.seq := by
  unfold flushIfDisabled; split <;> simp

@[simp] theorem flushIfDisabled_result (b : Bool) (e : Bit) (s : State) :
    (flushIfDisabled b e s).result = s.result := by
  unfold flushIfDisabled; split <;> simp

@[simp] theorem flushIfDisabled_hostQueue (b : Bool) (e : Bit) (s : State) :
    (flushIfDisabled b e s).hostQueue = s.hostQueue := by
  unfold flushIfDisabled; split <;> simp

@[simp] theorem flushIfDisabled_collected (b : Bool) (e : Bit) (s : State) :
    (flushIfDisabled b e s).collected = s.collected := by
  unfold flushIfDisabled; split <;> simp

@[simp] theorem flushIfDisabled_script (b : Bool) (e : Bit) (s : State) :
    (flushIfDisabled b e s).script = s.script := by
  unfold flushIfDisabled; split <;> simp

theorem flushIfDisabled_rxFifo (b : Bool) (e : Bit) (s : State) :
    (flushIfDisabled b e s).rxFifo = if e = true ∧ s.rxen = false ∧ b = true then [] else s.rxFifo := by
  unfold flushIfDisabled; cases e <;> cases s.rxen <;> cases b <;> simp

/-- The flush changes the receive buffer, the views of an empty buffer and the count of draws only. -/
theorem flushIfDisabled_frame (b : Bool) (e : Bit) (s : State) :
    flushIfDisabled b e s = { s with
      rxFifo := (flushIfDisabled b e s).rxFifo, emptyFe := (flushIfDisabled b e s).emptyFe,
      emptyPe := (flushIfDisabled b e s).emptyPe, emptyRxb8 := (flushIfDisabled b e s).emptyRxb8,
      draws := (flushIfDisabled b e s).draws } := by
  unfold flushIfDisabled
  split
  · rw [replaceRx_rxFifo]; exact replaceRx_frame s []
  · rfl

/-- No flush where RXEN does not fall, or the parameter is false. -/
theorem flushIfDisabled_eq_self {b : Bool} {e : Bit} (h : (e && !s.rxen && b) = false) :
    flushIfDisabled b e s = s := by
  simp [flushIfDisabled, h]

/-! ### INIT -/

/-- Writing the high part and then the low byte of one value leaves that value in the baud register. -/
theorem ubrr_high_then_low (old v : BitVec Config.ubrrBits) :
    ((((v &&& ~~~ 0xFF) ||| (old &&& 0xFF)) &&& ~~~ 0xFF) ||| (v &&& 0xFF)) = v := by
  apply BitVec.eq_of_getLsbD_eq
  intro i hi
  simp only [BitVec.getLsbD_or, BitVec.getLsbD_and, BitVec.getLsbD_not, hi, decide_true,
    Bool.true_and]
  generalize v.getLsbD i = a
  generalize old.getLsbD i = b
  generalize BitVec.getLsbD (0xFF : BitVec Config.ubrrBits) i = c
  cases a <;> cases b <;> cases c <;> rfl

@[simp] theorem initFields_ubrr (clock : Nat) (cfg : ConfigRecord) (s : State) :
    (initFields clock cfg s).ubrr = initUbrr clock cfg := by
  simp only [initFields, State.setIrq_ubrr, State.setPol_ubrr, State.setStop_ubrr,
    State.setParity_ubrr, State.setSize_ubrr, State.setDuplex_ubrr, State.setMode_ubrr,
    State.setUrsel_ubrr, State.setUbrrLow_ubrr, State.setUbrrHigh_ubrr]
  exact ubrr_high_then_low _ _

@[simp] theorem initFields_u2x (clock : Nat) (cfg : ConfigRecord) (s : State) :
    (initFields clock cfg s).u2x = (modeBits cfg.mode).2 := rfl

@[simp] theorem initFields_mpcm (clock : Nat) (cfg : ConfigRecord) (s : State) :
    (initFields clock cfg s).mpcm = s.mpcm := rfl

@[simp] theorem initFields_rxcie (clock : Nat) (cfg : ConfigRecord) (s : State) :
    (initFields clock cfg s).rxcie = (irqBits cfg.irq).1 := rfl

@[simp] theorem initFields_txcie (clock : Nat) (cfg : ConfigRecord) (s : State) :
    (initFields clock cfg s).txcie = (irqBits cfg.irq).2.1 := rfl

@[simp] theorem initFields_udrie (clock : Nat) (cfg : ConfigRecord) (s : State) :
    (initFields clock cfg s).udrie = (irqBits cfg.irq).2.2 := rfl

@[simp] theorem initFields_rxen (clock : Nat) (cfg : ConfigRecord) (s : State) :
    (initFields clock cfg s).rxen = (duplexBits cfg.duplex).2 := rfl

@[simp] theorem initFields_txen (clock : Nat) (cfg : ConfigRecord) (s : State) :
    (initFields clock cfg s).txen = (duplexBits cfg.duplex).1 := rfl

@[simp] theorem initFields_ucsz2 (clock : Nat) (cfg : ConfigRecord) (s : State) :
    (initFields clock cfg s).ucsz2 = (sizeBits cfg.size).1 := rfl

@[simp] theorem initFields_txb8 (clock : Nat) (cfg : ConfigRecord) (s : State) :
    (initFields clock cfg s).txb8 = s.txb8 := rfl

@[simp] theorem initFields_ursel (clock : Nat) (cfg : ConfigRecord) (s : State) :
    (initFields clock cfg s).ursel = false := rfl

@[simp] theorem initFields_umsel (clock : Nat) (cfg : ConfigRecord) (s : State) :
    (initFields clock cfg s).umsel = (modeBits cfg.mode).1 := rfl

@[simp] theorem initFields_upm (clock : Nat) (cfg : ConfigRecord) (s : State) :
    (initFields clock cfg s).upm = parityBits cfg.parity := rfl

@[simp] theorem initFields_usbs (clock : Nat) (cfg : ConfigRecord) (s : State) :
    (initFields clock cfg s).usbs = stopBit cfg.stop := rfl

@[simp] theorem initFields_ucsz (clock : Nat) (cfg : ConfigRecord) (s : State) :
    (initFields clock cfg s).ucsz = (sizeBits cfg.size).2 := rfl

@[simp] theorem initFields_ucpol (clock : Nat) (cfg : ConfigRecord) (s : State) :
    (initFields clock cfg s).ucpol = polBit cfg.pol := rfl

@[simp] theorem initFields_txc (clock : Nat) (cfg : ConfigRecord) (s : State) :
    (initFields clock cfg s).txc = s.txc := rfl

@[simp] theorem initFields_dor (clock : Nat) (cfg : ConfigRecord) (s : State) :
    (initFields clock cfg s).dor = s.dor := rfl

@[simp] theorem initFields_txBuf (clock : Nat) (cfg : ConfigRecord) (s : State) :
    (initFields clock cfg s).txBuf = s.txBuf := rfl

@[simp] theorem initFields_txShift (clock : Nat) (cfg : ConfigRecord) (s : State) :
    (initFields clock cfg s).txShift = s.txShift := rfl

@[simp] theorem initFields_rxFifo (clock : Nat) (cfg : ConfigRecord) (s : State) :
    (initFields clock cfg s).rxFifo = s.rxFifo := rfl

@[simp] theorem initFields_txTrace (clock : Nat) (cfg : ConfigRecord) (s : State) :
    (initFields clock cfg s).txTrace = s.txTrace := rfl

@[simp] theorem initFields_seq (clock : Nat) (cfg : ConfigRecord) (s : State) :
    (initFields clock cfg s).seq = s.seq := rfl

@[simp] theorem initFields_result (clock : Nat) (cfg : ConfigRecord) (s : State) :
    (initFields clock cfg s).result = s.result := rfl

@[simp] theorem initFields_emptyFe (clock : Nat) (cfg : ConfigRecord) (s : State) :
    (initFields clock cfg s).emptyFe = s.emptyFe := rfl

@[simp] theorem initFields_emptyPe (clock : Nat) (cfg : ConfigRecord) (s : State) :
    (initFields clock cfg s).emptyPe = s.emptyPe := rfl

@[simp] theorem initFields_emptyRxb8 (clock : Nat) (cfg : ConfigRecord) (s : State) :
    (initFields clock cfg s).emptyRxb8 = s.emptyRxb8 := rfl

@[simp] theorem initFields_hostQueue (clock : Nat) (cfg : ConfigRecord) (s : State) :
    (initFields clock cfg s).hostQueue = s.hostQueue := rfl

@[simp] theorem initFields_collected (clock : Nat) (cfg : ConfigRecord) (s : State) :
    (initFields clock cfg s).collected = s.collected := rfl

@[simp] theorem initFields_script (clock : Nat) (cfg : ConfigRecord) (s : State) :
    (initFields clock cfg s).script = s.script := rfl

@[simp] theorem initFields_draws (clock : Nat) (cfg : ConfigRecord) (s : State) :
    (initFields clock cfg s).draws = s.draws := rfl

/-- INIT with a positive baud rate completes. -/
theorem initWith_pos {clock : Nat} {flush : Bool} {cfg : ConfigRecord} (h : cfg.baud ≠ 0) :
    initWith clock flush cfg s =
      .next ((flushIfDisabled flush s.rxen (initFields clock cfg s)).setSeq .idle) := by
  rw [initWith, if_neg h, complete_eq]

/-- INIT with baud rate 0 takes its fault and writes nothing else. -/
theorem initWith_zero {clock : Nat} {flush : Bool} {cfg : ConfigRecord} (h : cfg.baud = 0) :
    initWith clock flush cfg s = .next (s.setSeq (.faulted .baudZero (initWord cfg))) := by
  rw [initWith, if_pos h, raiseFault_eq]

/-! ### The port and the host -/

/-- Accepting a word changes the sequencer state only. -/
theorem acceptWord_eq (w : CmdWord) (s : State) :
    acceptWord w s =
      s.setSeq (match decode w with | .legal i => .busy i | .illegal c => .faulted c w) := by
  unfold acceptWord; split <;> simp [*]

/-- What issuing a word can do. -/
theorem hostIssue_cases (w : CmdWord) (s : State) :
    (s.seq = .idle ∧ s.hostQueue = [] ∧ hostIssue w s = acceptWord w s) ∨
      ((s.seq ≠ .idle ∨ s.hostQueue ≠ []) ∧ hostIssue w s = s) := by
  unfold hostIssue
  split
  · rename_i h; exact .inl ⟨h.1, h.2, rfl⟩
  · rename_i h
    refine .inr ⟨?_, rfl⟩
    by_cases h' : s.seq = .idle
    · exact .inr fun hq => h ⟨h', hq⟩
    · exact .inl h'

/-- What issuing the next word of an expansion can do. -/
theorem hostIssueNext_cases (s : State) :
    (∃ w rest, s.seq = .idle ∧ s.hostQueue = w :: rest ∧
      hostIssueNext s = acceptWord w (s.setHostQueue rest)) ∨
      ((s.seq ≠ .idle ∨ s.hostQueue = []) ∧ hostIssueNext s = s) := by
  unfold hostIssueNext
  split
  · rename_i w rest h1 h2; exact .inl ⟨w, rest, h1, h2, rfl⟩
  · rename_i h
    refine .inr ⟨?_, rfl⟩
    by_cases h' : s.seq = .idle
    · right
      cases hq : s.hostQueue with
      | nil => rfl
      | cons w rest => exact absurd hq (h w rest h')
    · exact .inl h'

/-- What taking up a text can do. -/
theorem hostIssueText_cases (text : List Byte) (s : State) :
    (s.seq = .idle ∧ s.hostQueue = [] ∧
      hostIssueText text s =
        .next ((s.setHostQueue ((textBytes text).map utxWord)).setSeq .idle)) ∨
      ((s.seq ≠ .idle ∨ s.hostQueue ≠ []) ∧ hostIssueText text s = .next s) := by
  unfold hostIssueText
  split
  · rename_i h
    refine .inl ⟨h.1, h.2, ?_⟩
    simp [exec, execUtxs, h.2]
  · rename_i h
    refine .inr ⟨?_, rfl⟩
    by_cases h' : s.seq = .idle
    · exact .inr fun hq => h ⟨h', hq⟩
    · exact .inl h'

/-- Collecting takes the result, if there is one. -/
theorem hostCollect_cases (s : State) :
    (s.result = none ∧ hostCollect s = s) ∨
      ∃ r, s.result = some r ∧
        hostCollect s = (s.setCollected (s.collected ++ [r])).setResult none := by
  unfold hostCollect
  split
  · rename_i h; exact .inl ⟨h, rfl⟩
  · rename_i r h; exact .inr ⟨r, h, rfl⟩

/-! ### The line agents -/

/-- LINE_TX_LOAD moves the byte, or is not enabled. -/
theorem lineTxLoad_cases (s : State) :
    (∃ b8 d, s.txBuf = some (b8, d) ∧ s.txShift = none ∧
      lineTxLoad s = (s.setTxShift (some (frameOf b8 d s))).setTxBuf none) ∨
      ((s.txBuf = none ∨ s.txShift ≠ none) ∧ lineTxLoad s = s) := by
  unfold lineTxLoad
  split
  · rename_i b8 d h1 h2; exact .inl ⟨b8, d, h1, h2, rfl⟩
  · rename_i h
    refine .inr ⟨?_, rfl⟩
    cases hb : s.txBuf with
    | none => exact .inl rfl
    | some p => exact .inr fun hs => h p.1 p.2 hb hs

/-- LINE_TX_SHIFT finishes a frame, or is not enabled. -/
theorem lineTxShift_cases (s : State) :
    (∃ f, s.txShift = some f ∧
      lineTxShift s =
        ((s.setTxTrace (s.txTrace ++ [f])).setTxShift none).setTxc (s.txc || s.txBuf.isNone)) ∨
      (s.txShift = none ∧ lineTxShift s = s) := by
  unfold lineTxShift
  split
  · rename_i h; exact .inr ⟨h, rfl⟩
  · rename_i f h; exact .inl ⟨f, h, rfl⟩

/-- LINE_RX_DELIVER appends the drawn frame, or is not enabled. -/
theorem lineRxDeliver_cases (e : RxEntry) (s : State) :
    (s.rxen = true ∧ s.rxFifo.length < Config.rxDepth ∧
      lineRxDeliver e s = s.setRxFifo (s.rxFifo ++ [e])) ∨ lineRxDeliver e s = s := by
  unfold lineRxDeliver
  split
  · rename_i h; exact .inl ⟨h.1, h.2, rfl⟩
  · exact .inr rfl

/-- LINE_RX_OVERRUN sets DOR, or is not enabled. -/
theorem lineRxOverrun_cases (s : State) :
    (s.rxen = true ∧ s.rxFifo.length = Config.rxDepth ∧ lineRxOverrun s = s.setDor true) ∨
      lineRxOverrun s = s := by
  unfold lineRxOverrun
  split
  · rename_i h; exact .inl ⟨h.1, h.2, rfl⟩
  · exact .inr rfl

/-! ### Which move comes next -/

@[simp] theorem advance_u2x (s : State) : s.advance.u2x = s.u2x := by
  unfold State.advance; split <;> rfl

@[simp] theorem advance_mpcm (s : State) : s.advance.mpcm = s.mpcm := by
  unfold State.advance; split <;> rfl

@[simp] theorem advance_rxcie (s : State) : s.advance.rxcie = s.rxcie := by
  unfold State.advance; split <;> rfl

@[simp] theorem advance_txcie (s : State) : s.advance.txcie = s.txcie := by
  unfold State.advance; split <;> rfl

@[simp] theorem advance_udrie (s : State) : s.advance.udrie = s.udrie := by
  unfold State.advance; split <;> rfl

@[simp] theorem advance_rxen (s : State) : s.advance.rxen = s.rxen := by
  unfold State.advance; split <;> rfl

@[simp] theorem advance_txen (s : State) : s.advance.txen = s.txen := by
  unfold State.advance; split <;> rfl

@[simp] theorem advance_ucsz2 (s : State) : s.advance.ucsz2 = s.ucsz2 := by
  unfold State.advance; split <;> rfl

@[simp] theorem advance_txb8 (s : State) : s.advance.txb8 = s.txb8 := by
  unfold State.advance; split <;> rfl

@[simp] theorem advance_ursel (s : State) : s.advance.ursel = s.ursel := by
  unfold State.advance; split <;> rfl

@[simp] theorem advance_umsel (s : State) : s.advance.umsel = s.umsel := by
  unfold State.advance; split <;> rfl

@[simp] theorem advance_upm (s : State) : s.advance.upm = s.upm := by
  unfold State.advance; split <;> rfl

@[simp] theorem advance_usbs (s : State) : s.advance.usbs = s.usbs := by
  unfold State.advance; split <;> rfl

@[simp] theorem advance_ucsz (s : State) : s.advance.ucsz = s.ucsz := by
  unfold State.advance; split <;> rfl

@[simp] theorem advance_ucpol (s : State) : s.advance.ucpol = s.ucpol := by
  unfold State.advance; split <;> rfl

@[simp] theorem advance_ubrr (s : State) : s.advance.ubrr = s.ubrr := by
  unfold State.advance; split <;> rfl

@[simp] theorem advance_txc (s : State) : s.advance.txc = s.txc := by
  unfold State.advance; split <;> rfl

@[simp] theorem advance_dor (s : State) : s.advance.dor = s.dor := by
  unfold State.advance; split <;> rfl

@[simp] theorem advance_txBuf (s : State) : s.advance.txBuf = s.txBuf := by
  unfold State.advance; split <;> rfl

@[simp] theorem advance_txShift (s : State) : s.advance.txShift = s.txShift := by
  unfold State.advance; split <;> rfl

@[simp] theorem advance_rxFifo (s : State) : s.advance.rxFifo = s.rxFifo := by
  unfold State.advance; split <;> rfl

@[simp] theorem advance_txTrace (s : State) : s.advance.txTrace = s.txTrace := by
  unfold State.advance; split <;> rfl

@[simp] theorem advance_seq (s : State) : s.advance.seq = s.seq := by
  unfold State.advance; split <;> rfl

@[simp] theorem advance_result (s : State) : s.advance.result = s.result := by
  unfold State.advance; split <;> rfl

@[simp] theorem advance_emptyFe (s : State) : s.advance.emptyFe = s.emptyFe := by
  unfold State.advance; split <;> rfl

@[simp] theorem advance_emptyPe (s : State) : s.advance.emptyPe = s.emptyPe := by
  unfold State.advance; split <;> rfl

@[simp] theorem advance_emptyRxb8 (s : State) : s.advance.emptyRxb8 = s.emptyRxb8 := by
  unfold State.advance; split <;> rfl

@[simp] theorem advance_hostQueue (s : State) : s.advance.hostQueue = s.hostQueue := by
  unfold State.advance; split <;> rfl

@[simp] theorem advance_collected (s : State) : s.advance.collected = s.collected := by
  unfold State.advance; split <;> rfl

/-- With a script, the next move is its head. -/
theorem step_of_script {m : Move} {rest : List Move} (h : s.script = m :: rest) :
    step s = perform m { s with script := rest } := by
  simp [step, State.nextMove, State.advance, h]

/-- The sequencer executes what is in flight, if it is a command, and has no step otherwise. -/
theorem sequencerStep_next (hn : sequencerStep s = .next t) :
    (∃ i, s.seq = .busy i ∧ i.wf = true ∧ exec i s = .next t) ∨ ((∀ i, s.seq ≠ .busy i) ∧ t = s) := by
  unfold sequencerStep at hn
  split at hn
  · rename_i i hi
    split at hn
    · rename_i hw; exact .inl ⟨i, hi, hw, hn⟩
    · cases hn
  · rename_i hb
    cases hn
    exact .inr ⟨fun i hi => hb i hi, rfl⟩

/-- Everything an agent's move can do. -/
theorem perform_next {m : Move} (hn : perform m s = .next t) :
    (∃ w, m = .issue w ∧ t = hostIssue w s) ∨
    (∃ text, m = .issueText text ∧ hostIssueText text s = .next t) ∨
    (m = .issueNext ∧ t = hostIssueNext s) ∨
    (m = .collect ∧ t = hostCollect s) ∨
    (m = .snapshot ∧ t = s) ∨
    (∃ u, m = .reset u ∧ t = resetInput u s) ∨
    (m = .sequencer ∧ sequencerStep s = .next t) ∨
    (m = .txLoad ∧ t = lineTxLoad s) ∨
    (m = .txShift ∧ t = lineTxShift s) ∨
    (∃ e, m = .rxDeliver e ∧ t = lineRxDeliver e s) ∨
    (m = .rxOverrun ∧ t = lineRxOverrun s) := by
  cases m <;> simp_all [perform]

end Sys2Proof.Machine
end

