-- ==== Sys2Proof/Laws/Exec.lean ====
section
/-! SUPPORT. What executing a command can do, once for all of them, and the tables of INIT as plain
conditions on the codes. -/

namespace Sys2Proof.Machine

variable {s t : State}

/-! ### Each meaning as its shared operation -/

theorem exec_uinit (cfg : ConfigRecord) (s : State) :
    exec (.uinit cfg) s = initWith Config.fClk Config.rxFlushOnDisable cfg s := rfl

theorem exec_utx (d : Byte) (s : State) : exec (.utx d) s = holdUntilUdre (udrWrite d) s := rfl

theorem exec_utx9 (w : BitVec 16) (s : State) :
    exec (.utx9 w) s = holdUntilUdre (fun s =>
      udrWrite (lowByte w) (s.setTxb8 (nextTxb8 Config.tx9Update s.txb8 (ninthBit w)))) s := rfl

theorem exec_urx (s : State) : exec .urx s = receive (fun _ h => byteResult h.data8) s := rfl

theorem exec_urx9 (s : State) :
    exec .urx9 s = receive (fun s h => wordResult s.rxb8 h.data8) s := rfl

theorem exec_urxe (s : State) :
    exec .urxe s =
      receive (fun s h => checkedResult (detectionCode (classify s.fe s.dor s.pe)) h.data8) s := rfl

theorem exec_udis (s : State) :
    exec .udis s = .next
      ((flushIfDisabled Config.rxFlushOnDisable s.rxen (s.setDuplex (false, false))).setSeq .idle) :=
  rfl

theorem exec_utxs (text : List Byte) (s : State) :
    exec (.utxs text) s =
      .next ((s.setHostQueue ((textBytes text).map utxWord ++ s.hostQueue)).setSeq .idle) := rfl

/-! ### Result words -/

theorem byteResult_legal (d : Byte) : legalResult (byteResult d) := by
  have := d.isLt
  simp only [legalResult, byteResult, BitVec.toNat_setWidth]
  omega

theorem wordResult_legal (b : Bit) (d : Byte) : legalResult (wordResult b d) := by
  have := (nineBits b d).isLt
  simp only [legalResult, wordResult, BitVec.toNat_setWidth]
  omega

theorem checkedResult_legal (c : BitVec 2) (d : Byte) : legalResult (checkedResult c d) := by
  have := d.isLt
  have := c.isLt
  have h : (0 : BitVec 6).toNat = 0 := rfl
  simp only [legalResult, checkedResult, toNat_append_eq, h]
  omega

/-! ### Everything a command's execution can do -/

/-- The ways an execution answers a next state: INIT's fault, INIT, DISABLE, a transmit hold, the two
hand-overs, a receive hold, a receive, and UTXS's expansion. -/
theorem exec_next {i : Instr} (h : exec i s = .next t) :
    (∃ cfg, i = .uinit cfg ∧
      ((cfg.baud = 0 ∧ t = s.setSeq (.faulted .baudZero (initWord cfg))) ∨
        (cfg.baud ≠ 0 ∧ t = (flushIfDisabled Config.rxFlushOnDisable s.rxen
          (initFields Config.fClk cfg s)).setSeq .idle))) ∨
    (i = .udis ∧ t = (flushIfDisabled Config.rxFlushOnDisable s.rxen
      (s.setDuplex (false, false))).setSeq .idle) ∨
    (i.transmits = true ∧ s.txBuf ≠ none ∧ t = s) ∨
    (∃ d, i = .utx d ∧ s.txBuf = none ∧ t = (s.setTxBuf (some (s.txb8, d))).setSeq .idle) ∨
    (∃ w b, i = .utx9 w ∧ s.txBuf = none ∧ b = nextTxb8 Config.tx9Update s.txb8 (ninthBit w) ∧
      t = ((s.setTxb8 b).setTxBuf (some (b, lowByte w))).setSeq .idle) ∨
    (i.receives = true ∧ s.rxFifo = [] ∧ t = s) ∨
    (∃ h rest r, i.receives = true ∧ s.rxFifo = h :: rest ∧ legalResult r ∧
      t = (((s.setDor false).replaceRx rest).setResult (some r)).setSeq .idle) ∨
    (∃ x, i = .utxs x ∧
      t = (s.setHostQueue ((textBytes x).map utxWord ++ s.hostQueue)).setSeq .idle) := by
  have received : ∀ (r : State → RxEntry → ResultWord), (∀ s h, legalResult (r s h)) →
      receive r s = .next t → (s.rxFifo = [] ∧ t = s) ∨
        (∃ h rest x, s.rxFifo = h :: rest ∧ legalResult x ∧
          t = (((s.setDor false).replaceRx rest).setResult (some x)).setSeq .idle) := by
    intro r hr hn
    rcases receive_next hn with h | ⟨h, rest, h1, h2⟩
    · exact .inl h
    · exact .inr ⟨h, rest, _, h1, hr s h, h2⟩
  cases i with
  | uinit cfg =>
    refine .inl ⟨cfg, rfl, ?_⟩
    rw [exec_uinit] at h
    by_cases hb : cfg.baud = 0
    · rw [initWith_zero hb] at h; cases h; exact .inl ⟨hb, rfl⟩
    · rw [initWith_pos hb] at h; cases h; exact .inr ⟨hb, rfl⟩
  | udis => rw [exec_udis] at h; cases h; simp
  | utx d =>
    rw [exec_utx] at h
    rcases holdUntilUdre_next h with ⟨h1, h2⟩ | ⟨h1, h2⟩
    · simp [Instr.transmits, h1, h2]
    · exact .inr (.inr (.inr (.inl ⟨d, rfl, h1, h2⟩)))
  | utx9 w =>
    rw [exec_utx9] at h
    rcases holdUntilUdre_next h with ⟨h1, h2⟩ | ⟨h1, h2⟩
    · simp [Instr.transmits, h1, h2]
    · exact .inr (.inr (.inr (.inr (.inl ⟨w, _, rfl, h1, rfl, h2⟩))))
  | urx =>
    rw [exec_urx] at h
    rcases received _ (fun _ _ => byteResult_legal _) h with ⟨h1, h2⟩ | ⟨f, rest, x, h1, h2, h3⟩
    · simp [Instr.receives, h1, h2]
    · exact .inr (.inr (.inr (.inr (.inr (.inr (.inl ⟨f, rest, x, rfl, h1, h2, h3⟩))))))
  | urx9 =>
    rw [exec_urx9] at h
    rcases received _ (fun _ _ => wordResult_legal _ _) h with ⟨h1, h2⟩ | ⟨f, rest, x, h1, h2, h3⟩
    · simp [Instr.receives, h1, h2]
    · exact .inr (.inr (.inr (.inr (.inr (.inr (.inl ⟨f, rest, x, rfl, h1, h2, h3⟩))))))
  | urxe =>
    rw [exec_urxe] at h
    rcases received _ (fun _ _ => checkedResult_legal _ _) h with ⟨h1, h2⟩ | ⟨f, rest, x, h1, h2, h3⟩
    · simp [Instr.receives, h1, h2]
    · exact .inr (.inr (.inr (.inr (.inr (.inr (.inl ⟨f, rest, x, rfl, h1, h2, h3⟩))))))
  | utxs x =>
    rw [exec_utxs] at h; cases h
    exact .inr (.inr (.inr (.inr (.inr (.inr (.inr ⟨x, rfl, rfl⟩))))))

/-- Every execution answers a next state. -/
theorem exec_answers (i : Instr) (s : State) : ∃ t, exec i s = .next t := by
  have received : ∀ r : State → RxEntry → ResultWord, ∃ t, receive r s = .next t := by
    intro r
    cases hs : s.rxFifo with
    | nil => exact ⟨_, receive_nil hs⟩
    | cons h rest => exact ⟨_, receive_cons hs⟩
  have transmitted : ∀ act : State → State, ∃ t, holdUntilUdre act s = .next t := by
    intro act
    by_cases hs : s.txBuf = none
    · exact ⟨_, holdUntilUdre_none hs⟩
    · exact ⟨_, holdUntilUdre_some hs⟩
  cases i with
  | uinit cfg =>
    by_cases hb : cfg.baud = 0
    · exact ⟨_, (exec_uinit cfg s).trans (initWith_zero hb)⟩
    · exact ⟨_, (exec_uinit cfg s).trans (initWith_pos hb)⟩
  | utx d => rw [exec_utx]; exact transmitted _
  | utx9 w => rw [exec_utx9]; exact transmitted _
  | urx => rw [exec_urx]; exact received _
  | urx9 => rw [exec_urx9]; exact received _
  | urxe => rw [exec_urxe]; exact received _
  | udis => exact ⟨_, exec_udis s⟩
  | utxs x => exact ⟨_, exec_utxs x s⟩

/-! ### INIT's tables as conditions on the codes (40_configuration.md R141 to R147) -/

theorem modeBits_eq : ∀ x : BitVec 4, modeBits x = (decide (x = 0), decide (x = 2)) := by decide

theorem duplexBits_eq :
    ∀ x : BitVec 4, duplexBits x = (decide (x ≠ 1), decide (x = 1 ∨ x = 2)) := by decide

theorem sizeBits_eq : ∀ x : BitVec 4, sizeBits x =
    (decide (x = 4), if x = 0 then 0 else if x = 1 then 1 else if x = 2 then 2 else 3) := by decide

theorem parityBits_eq :
    ∀ x : BitVec 4, parityBits x = if x = 1 then 2 else if x = 2 then 3 else 0 := by decide

theorem stopBit_eq : ∀ x : BitVec 4, stopBit x = decide (x = 1) := by decide

theorem polBit_eq : ∀ x : BitVec 4, polBit x = decide (x = 0) := by decide

theorem irqBits_eq :
    ∀ x : BitVec 4, irqBits x = (decide (x = 1), decide (x = 2), decide (x = 3)) := by decide

/-! ### Operands as numbers -/

theorem lowByte_eq (w : BitVec 16) : lowByte w = BitVec.ofNat 8 (w.toNat % 256) := by
  simp [lowByte, ← BitVec.toNat_inj]

theorem nineBits_toNat (b : Bit) (d : Byte) : (nineBits b d).toNat = 256 * b.toNat + d.toNat := by
  rw [nineBits, toNat_append_eq]
  cases b <;> simp

/-- A text is transmitted up to its first NUL, or whole where it has none (30_encoding.md R117). -/
theorem textBytes_of_not_mem {a : List Byte} (h : 0 ∉ a) (b : List Byte) :
    textBytes (a ++ 0 :: b) = a ∧ textBytes a = a := by
  induction a with
  | nil => simp [textBytes]
  | cons x xs ih =>
    have hx := not_or.1 (mt List.mem_cons.2 h)
    have := ih hx.2
    simp only [textBytes, List.cons_append, List.takeWhile_cons, bne_iff_ne, ne_eq, Ne.symm hx.1,
      not_false_eq_true, if_true, List.cons.injEq, true_and] at this ⊢
    exact this

/-! ### Frames of the shared operations -/

/-- A receive writes the result, the buffer, DOR, the sequencer state and the views of an empty buffer. -/
theorem received_frame (s : State) (rest : List RxEntry) (r : ResultWord) :
    (((s.setDor false).replaceRx rest).setResult (some r)).setSeq .idle = { s with
      result := some r, rxFifo := rest, dor := false, seq := .idle,
      emptyFe := ((s.setDor false).replaceRx rest).emptyFe,
      emptyPe := ((s.setDor false).replaceRx rest).emptyPe,
      emptyRxb8 := ((s.setDor false).replaceRx rest).emptyRxb8,
      draws := ((s.setDor false).replaceRx rest).draws } := by
  rw [replaceRx_frame]; rfl

/-- The flush leaves the receive buffer as it is, or empties it as RXEN falls. -/
theorem flushIfDisabled_rxFifo_cases (b : Bool) (e : Bit) (s : State) :
    (flushIfDisabled b e s).rxFifo = s.rxFifo ∨
      (e = true ∧ s.rxen = false ∧ b = true ∧ (flushIfDisabled b e s).rxFifo = []) := by
  rw [flushIfDisabled_rxFifo]; split_ifs <;> simp_all

/-! ### Runs of the machine -/

/-- A run whose first step answers a next state goes on from there. -/
theorem run_next {n : Nat} (h : step s = .next t) :
    Host.Core.run core (n + 1) s = Host.Core.run core n t := by
  have h' : core.step s = .next t := h
  simp only [Host.Core.run, h']

end Sys2Proof.Machine
end

