-- ==== Sys2Proof/Laws/PerInstr.lean ====
section
/-! SUPPORT. The per-instruction family EncodeLegal: every word an instruction stands for is a legal
command word, one lemma for each constructor. -/

namespace Sys2Proof.Laws.EncodeLegal

/-- Each word of the instruction decodes to a well-formed command (30_encoding.md R109, R110). -/
def Statement (i : Instr) : Prop := ∀ w ∈ encode i, ∃ j, decode w = .legal j ∧ j.wf = true

/-- A TX_BYTE word is legal, whatever its byte. -/
theorem utxWord_legal (d : Byte) : ∃ j, decode (utxWord d) = .legal j ∧ j.wf = true := by
  have h := utxWord_toNat d
  have hd := d.isLt
  rw [decode_eq, if_neg (by omega), if_pos (by omega), if_pos (by omega)]
  exact ⟨_, rfl, rfl⟩

theorem uinit (cfg : ConfigRecord) : Statement (.uinit cfg) := by
  intro w hw
  obtain rfl := List.mem_singleton.1 hw
  have h := initWord_toNat cfg
  rw [decode_eq, if_pos (by omega)]
  exact ⟨_, rfl, rfl⟩

theorem utx (data : Byte) : Statement (.utx data) := by
  intro w hw
  obtain rfl := List.mem_singleton.1 hw
  exact utxWord_legal data

theorem utx9 (word : BitVec 16) : Statement (.utx9 word) := by
  intro w hw
  obtain rfl := List.mem_singleton.1 hw
  have h := utx9Word_toNat word
  have hd := word.isLt
  rw [decode_eq, if_neg (by omega), if_neg (by omega), if_pos (by omega), if_pos (by omega)]
  exact ⟨_, rfl, rfl⟩

theorem urx : Statement .urx := by
  intro w hw
  obtain rfl := List.mem_singleton.1 hw
  exact ⟨_, rfl, rfl⟩

theorem urx9 : Statement .urx9 := by
  intro w hw
  obtain rfl := List.mem_singleton.1 hw
  exact ⟨_, rfl, rfl⟩

theorem urxe : Statement .urxe := by
  intro w hw
  obtain rfl := List.mem_singleton.1 hw
  exact ⟨_, rfl, rfl⟩

theorem udis : Statement .udis := by
  intro w hw
  obtain rfl := List.mem_singleton.1 hw
  exact ⟨_, rfl, rfl⟩

theorem utxs (text : List Byte) : Statement (.utxs text) := by
  intro w hw
  obtain ⟨d, -, rfl⟩ := List.mem_map.1 hw
  exact utxWord_legal d

end Sys2Proof.Laws.EncodeLegal
end

