-- ==== Sys2Proof/Tests/Slice0.lean ====
section
/-! SUPPORT. The model's own tests, with results taken from 95_test_vectors.md (each names its vector) and
from the encodings of 30_encoding.md, and a witness for the hypotheses of every statement that has some. -/

namespace Sys2Proof.Tests

open Sys2Proof.Machine

/-! ## Helpers -/

/-- Reset with URSEL drawn as 0. -/
def fresh : State := State.resetWith false

/-- The record of the base INIT (95_test_vectors.md, opening list). -/
def baseRecord : ConfigRecord := ⟨9600, 1, 0, 3, 0, 0, 1, 0⟩

/-- The next state of an answer. -/
def nextOf : Answer → Option State
  | .next t => some t
  | .fault _ | .refused _ => none

/-- An answer is a next state exactly when `nextOf` gives it. -/
theorem nextOf_eq_some {a : Answer} {t : State} : nextOf a = some t ↔ a = .next t := by
  cases a <;> simp [nextOf]

/-- UCSRA, UCSRB, UCSRC, UBRRH and UBRRL after an answer. -/
def viewsOf (a : Answer) : Option (List Byte) :=
  (nextOf a).map fun t => [t.ucsra, t.ucsrb, t.ucsrc, t.ubrrh, t.ubrrl]

/-- INIT at the vectors' clock. -/
def init16 (cfg : ConfigRecord) (s : State) : Answer := initWith 16000000 false cfg s

/-- A receive command's result word, what it leaves in the buffer, and DOR. -/
def receivedOf (a : Answer) : Option (Option ResultWord × List RxEntry × Bit) :=
  (nextOf a).map fun t => (t.result, t.rxFifo, t.dor)

/-- A frame without errors. -/
def cleanFrame (d : Byte) : RxEntry := ⟨d, false, false, false⟩

/-- A state with frames in the receive buffer. -/
def holding (frames : List RxEntry) (dor : Bit) : State :=
  { fresh with
    rxen := true
    rxFifo := frames
    dor := dor }

/-- A state with a byte in the transmit buffer. -/
def loaded (b8 : Bit) (d : Byte) : State := { fresh with txBuf := some (b8, d) }

/-- The frame V-LTX-1 gives for 0x41. -/
def frame41 : TxFrame := ⟨0x041, 0b011, 0, false, false, false, false, 0⟩

/-! ## Well-formedness -/

theorem test_utxs_is_no_command : Instr.wf (.utxs [0x41]) = false := by decide

theorem test_commands_are_well_formed :
    Instr.wf (.uinit baseRecord) = true ∧ Instr.wf (.utx 0x41) = true ∧
      Instr.wf (.utx9 0xFFFF) = true ∧ Instr.wf .urx = true ∧ Instr.wf .urx9 = true ∧
      Instr.wf .urxe = true ∧ Instr.wf .udis = true := by decide

/-! ## Decoding words written out bit by bit (30_encoding.md R93, R103 to R106) -/

/-- BAUD = 9600, IRQ = 1, POL = 2, STOP = 3, PARITY = 4, SIZE = 5, DUPLEX = 6, MODE = 7, OP = 1. -/
theorem test_decode_uinit :
    decode 0b0000000000000000001001011000000000010010001101000101011001110001 =
      .legal (.uinit ⟨9600, 7, 6, 5, 4, 3, 2, 1⟩) := by decide

/-- DATA8 = 0x41, OP = 2. -/
theorem test_decode_utx :
    decode 0b0000000000000000000000000000000000000000000000000100000100000010 =
      .legal (.utx 0x41) := by decide

/-- WORD16 = 0x81A5, OP = 3. -/
theorem test_decode_utx9 :
    decode 0b0000000000000000000000000000000010000001101001010000000000000011 =
      .legal (.utx9 0x81A5) := by decide

theorem test_decode_receive_and_control :
    decode 0b0100 = .legal .urx ∧ decode 0b0101 = .legal .urx9 ∧ decode 0b0110 = .legal .urxe ∧
      decode 0b0111 = .legal .udis := by decide

/-- V-DEC-1 to V-DEC-7. -/
theorem test_decode_faults :
    decode 0x0 = .illegal .illegalOpcode ∧ decode 0x8 = .illegal .illegalOpcode ∧
      decode 0xFFFFFFFFFFFFFFFF = .illegal .illegalOpcode ∧
      decode 0x14 = .illegal .reservedNonzero ∧ decode 0x1FF02 = .illegal .reservedNonzero ∧
      decode 0x100A50003 = .illegal .reservedNonzero ∧
      decode 0xF2 = .illegal .reservedNonzero := by decide

/-- V-DEC-10 and the words of the base INIT and of P2. -/
theorem test_encode_uinit :
    encode (.uinit baseRecord) = [0x0000258001003011] ∧
      encode (.uinit ⟨115200, 2, 2, 4, 1, 1, 1, 1⟩) = [0x0001C20011114221] ∧
      encode (.uinit ⟨0xFFFFFFFF, 15, 15, 15, 15, 15, 15, 15⟩) = [0xFFFFFFFFFFFFFFF1] := by decide

theorem test_encode_transmit :
    encode (.utx 0x41) = [0x4102] ∧ encode (.utx9 0x1A5) = [0x01A50003] := by decide

/-- V-UTXS-1 to V-UTXS-3: "OK", "" and "A\0B". -/
theorem test_encode_utxs :
    encode (.utxs [0x4F, 0x4B, 0]) = [0x4F02, 0x4B02] ∧ encode (.utxs [0]) = [] ∧
      encode (.utxs [0x41, 0x00, 0x42, 0]) = [0x4102] := by decide

/-- A word's bytes are little-endian (20_memory.md R75), and the decoder reads them back. -/
theorem test_word_bytes :
    CmdWord.toBytes 0x0000258001003011 = [0x11, 0x30, 0x00, 0x01, 0x80, 0x25, 0x00, 0x00] ∧
      decodeBytes [0x02, 0x41, 0, 0, 0, 0, 0, 0] = some (.legal (.utx 0x41)) ∧
      decodeBytes [0x02, 0x41] = none := by decide

theorem test_decodeTableWord :
    decodeTableWord 64 0x4102 = some (.utx 0x41) ∧ decodeTableWord 8 0x07 = some .udis ∧
      decodeTableWord 64 0x8 = none := by decide

/-! ## INIT -/

/-- V-MODE-0, V-MODE-2, V-DUP-2, V-SIZE-0, V-SIZE-4, V-PAR-2, V-STOP-1, V-POL-0, V-IRQ-1 and P4. -/
theorem test_uinit_fields :
    viewsOf (init16 ⟨9600, 0, 0, 3, 0, 0, 1, 0⟩ fresh) = some [0x20, 0x08, 0x46, 0x00, 0x67] ∧
    viewsOf (init16 ⟨9600, 2, 0, 3, 0, 0, 1, 0⟩ fresh) = some [0x22, 0x08, 0x06, 0x00, 0xCF] ∧
    viewsOf (init16 ⟨9600, 1, 2, 3, 0, 0, 1, 0⟩ fresh) = some [0x20, 0x18, 0x06, 0x00, 0x67] ∧
    viewsOf (init16 ⟨9600, 1, 0, 0, 0, 0, 1, 0⟩ fresh) = some [0x20, 0x08, 0x00, 0x00, 0x67] ∧
    viewsOf (init16 ⟨9600, 1, 0, 4, 0, 0, 1, 0⟩ fresh) = some [0x20, 0x0C, 0x06, 0x00, 0x67] ∧
    viewsOf (init16 ⟨9600, 1, 0, 3, 2, 0, 1, 0⟩ fresh) = some [0x20, 0x08, 0x36, 0x00, 0x67] ∧
    viewsOf (init16 ⟨9600, 1, 0, 3, 0, 1, 1, 0⟩ fresh) = some [0x20, 0x08, 0x0E, 0x00, 0x67] ∧
    viewsOf (init16 ⟨9600, 1, 0, 3, 0, 0, 0, 0⟩ fresh) = some [0x20, 0x08, 0x07, 0x00, 0x67] ∧
    viewsOf (init16 ⟨9600, 1, 0, 3, 0, 0, 1, 1⟩ fresh) = some [0x20, 0x88, 0x06, 0x00, 0x67] ∧
    viewsOf (init16 ⟨9600, 15, 9, 7, 3, 2, 5, 8⟩ fresh) = some [0x20, 0x08, 0x06, 0x00, 0x67] := by
  decide

/-- V-REINIT-1 and V-REINIT-3: no bit of an earlier setting survives, and TXB8 does. -/
theorem test_uinit_forgets_and_preserves :
    ((nextOf (init16 ⟨9600, 1, 2, 3, 2, 0, 1, 3⟩ { fresh with txb8 := true })).map fun t =>
      (t.ucsrb, t.ucsrc, viewsOf (init16 baseRecord t))) =
        some (0x39, 0x36, some [0x20, 0x09, 0x06, 0x00, 0x67]) := by decide

/-- V-DIV-3, 4, 5, 6, 14, 16 and 17 of section 2, the divisor alone. -/
theorem test_baud_divisor :
    baudDivisor 16000000 16 2400 = 415 ∧ baudDivisor 16000000 16 1000000 = 0 ∧
      baudDivisor 16000000 16 1000001 = -1 ∧ baudDivisor 16000000 8 9600 = 207 ∧
      baudDivisor 16000000 16 245 = 4080 ∧ baudDivisor 65536 16 1 = 4095 ∧
      baudDivisor 65552 16 1 = 4096 ∧ ubrrValue 415 = 0x19F ∧ ubrrValue 4095 = 0xFFF := by decide

/-! ## Transmit -/

/-- V-TX-3: TX_BYTE latches TXB8 and keeps it. -/
theorem test_utx_latches_txb8 :
    (nextOf (exec (.utx 0x00) { fresh with txb8 := true })).map (fun t => (t.txb8, t.txBuf)) =
      some (true, some (true, 0x00)) := by decide

/-- V-TX-2: it holds while the buffer is full. -/
theorem test_utx_holds :
    (nextOf (step { loaded false 0x41 with
      seq := .busy (.utx 0x42)
      script := [.sequencer] })).map
      (fun t => (t.txBuf, t.seq)) = some (some (false, 0x41), .busy (.utx 0x42)) := by decide

/-- V-TX9-1 to V-TX9-4. -/
theorem test_utx9_readings :
    (nextOf (txWord9 .assign 0x1A5 fresh)).map State.txBuf = some (some (true, 0xA5)) ∧
    (nextOf (txWord9 .assign 0x05A { fresh with txb8 := true })).map State.txBuf =
      some (some (false, 0x5A)) ∧
    (nextOf (txWord9 .orOnly 0x05A { fresh with txb8 := true })).map State.txBuf =
      some (some (true, 0x5A)) ∧
    (nextOf (txWord9 .orOnly 0x05A fresh)).map State.txBuf = some (some (false, 0x5A)) := by decide

/-- V-TX9-5 to V-TX9-7: bits above the ninth are ignored, and a hold writes no TXB8. -/
theorem test_utx9_high_bits_and_hold :
    (nextOf (txWord9 .assign 0xFFA5 fresh)).map State.txBuf = some (some (true, 0xA5)) ∧
    (nextOf (txWord9 .assign 0xFEA5 fresh)).map State.txBuf = some (some (false, 0xA5)) ∧
    (nextOf (txWord9 .assign 0x1A5 (loaded false 0x5A))).map (fun t => (t.txb8, t.txBuf)) =
      some (false, some (false, 0x5A)) := by decide

/-- V-UTXS-3: the host is committed to the one word of "A\0B". -/
theorem test_utxs_commits :
    (nextOf (step { fresh with script := [.issueText [0x41, 0x00, 0x42, 0x00]] })).map
      (fun t => (t.hostQueue, t.seq)) = some ([0x4102], .idle) := by decide

/-! ## Receive -/

/-- V-RX-2 and V-RX-3. -/
theorem test_urx :
    receivedOf (exec .urx (holding [⟨0x5A, true, true, true⟩] true)) =
      some (some 0x005A, [], false) ∧
    receivedOf (exec .urx (holding [cleanFrame 0x01, cleanFrame 0x02] false)) =
      some (some 0x0001, [cleanFrame 0x02], false) := by decide

/-- V-RX-4: it holds on an empty buffer. -/
theorem test_urx_holds :
    (nextOf (step { fresh with
      seq := .busy .urx
      script := [.sequencer] })).map (fun t => (t.result, t.seq)) =
      some (none, .busy .urx) := by decide

/-- V-RX9-1 and V-RX9-3. -/
theorem test_urx9 :
    receivedOf (exec .urx9 (holding [⟨0x3C, true, false, false⟩] false)) =
      some (some 0x013C, [], false) ∧
    receivedOf (exec .urx9 (holding [⟨0xFF, true, true, false⟩] false)) =
      some (some 0x01FF, [], false) := by decide

/-- V-RXE-1 and V-RXE-2. -/
theorem test_urxe :
    receivedOf (exec .urxe (holding [⟨0x55, false, true, true⟩] true)) =
      some (some 0x0155, [], false) ∧
    receivedOf (exec .urxe (holding [cleanFrame 0x11, ⟨0x22, false, false, true⟩] true)) =
      some (some 0x0211, [⟨0x22, false, false, true⟩], false) := by decide

/-- V-CLS-0 to V-CLS-7. -/
theorem test_classification :
    [(false, false, false), (false, false, true), (false, true, false), (false, true, true),
      (true, false, false), (true, false, true), (true, true, false), (true, true, true)].map
      (fun f => checkedResult (detectionCode (classify f.1 f.2.1 f.2.2)) 0x55) =
      [0x0055, 0x0355, 0x0255, 0x0255, 0x0155, 0x0155, 0x0155, 0x0155] := by decide

/-! ## DISABLE -/

/-- V-DIS-2 and V-DIS-6: the enables fall; UDRIE and the transmit buffer stay. -/
theorem test_udis :
    (nextOf (disableWith false { loaded false 0x41 with
      txen := true
      rxen := true
      udrie := true })).map
      (fun t => (t.ucsrb, t.txBuf)) = some (0x20, some (false, 0x41)) := by decide

/-- V-DIS-4 and V-DIS-5: the receive buffer under both values of `rx_flush_on_disable`. -/
theorem test_udis_flush :
    (nextOf (disableWith false (holding [cleanFrame 0x11] true))).map
      (fun t => (t.rxen, t.rxFifo, t.dor)) = some (false, [cleanFrame 0x11], true) ∧
    (nextOf (disableWith true (holding [cleanFrame 0x11] true))).map
      (fun t => (t.rxen, t.rxFifo, t.dor)) = some (false, [], true) := by decide

/-! ## The line, faults and reset -/

/-- V-LTX-1, V-LTX-2 and V-LTX-3. -/
theorem test_line_tx :
    lineTxLoad (loaded false 0x41) = { fresh with txShift := some frame41 } ∧
    lineTxShift { fresh with txShift := some frame41 } =
      { fresh with
        txTrace := [frame41]
        txc := true } ∧
    (lineTxShift { loaded false 0x42 with txShift := some frame41 }).txc = false := by decide

/-- V-LRX-1, V-LRX-2 and V-LRX-3. -/
theorem test_line_rx :
    (lineRxDeliver (cleanFrame 0x11) (holding [] false)).ucsra = 0xA0 ∧
    (lineRxOverrun (holding [cleanFrame 1, cleanFrame 2] false)).dor = true ∧
    lineRxDeliver (cleanFrame 3) (holding [cleanFrame 1, cleanFrame 2] false) =
      holding [cleanFrame 1, cleanFrame 2] false ∧
    lineRxDeliver (cleanFrame 0x11) fresh = fresh ∧ lineRxOverrun fresh = fresh := by decide

/-- P5: BAUD = 0 latches the fault with INIT's word, and the next word is not accepted. -/
theorem test_baud_zero_latches :
    (nextOf (step (fresh.withFetchWord 64 0x01003011))).map State.seq =
      some (.faulted .baudZero 0x01003011) ∧
    perform (.issue 0x4102) { fresh with seq := .faulted .baudZero 0x01003011 } =
      .next { fresh with seq := .faulted .baudZero 0x01003011 } := by
  simp only [← nextOf_eq_some]; decide

/-- V-DEC-4: a word that does not decode is taken up and latches its fault. -/
theorem test_illegal_word_latches :
    (nextOf (step (fresh.withFetchWord 64 0x14))).map State.seq =
      some (.faulted .reservedNonzero 0x14) := by decide

/-- Reset drops a latched fault and draws URSEL (70_reset_and_hazards.md R265). -/
theorem test_reset_recovers :
    (nextOf (perform (.reset true) { holding [cleanFrame 1] true with
      seq := .faulted .illegalOpcode 0 })).map
      (fun t => (t.seq, t.rxFifo, t.ucsrc)) = some (.idle, [], 0x86) := by decide

/-- The register map of 20_memory.md R71: I/O address and data-space address. -/
theorem test_register_map :
    [Reg.ubrrl, .ucsrb, .ucsra, .ubrrh, .ucsrc].map (fun r => (ioAddress r, dataAddress r)) =
      [(0x09, 0x29), (0x0A, 0x2A), (0x0B, 0x2B), (0x20, 0x40), (0x20, 0x40)] ∧
    (udrIoAddress, udrDataAddress) = (0x0C, 0x2C) := by decide

/-! ## The assembler -/

/-- The lines of P2 and of P4, with their words. -/
theorem test_assemble_uinit :
    assembleLine (ascii
      "UINIT baud=115200, mode=async2x, duplex=txrx, size=9, parity=even, stop=2, pol=rising, irq=rxc") =
      some [0x0001C20011114221] ∧
    assembleLine (ascii
      "UINIT baud=9600, mode=#15, duplex=#9, size=#7, parity=#3, stop=#2, pol=#5, irq=#8 ; P4") =
      some [0x00002580852379F1] := by decide

/-- The lines of section 4, a comment line, and operands out of range (30_encoding.md R115). -/
theorem test_assemble_others :
    assembleLine (ascii "utx9 0x1A5") = some [0x01A50003] ∧
    assembleLine (ascii "UTXS \"A\\0B\"") = some [0x4102] ∧
    assembleLine (ascii "  ; nothing") = some [] ∧ assembleLine (ascii "Udis") = some [0x07] ∧
    assembleLine (ascii "UTX 256") = none ∧ assembleLine (ascii "UTX9 0x10000") = none := by decide

/-! ## Witnesses: a state and operands that meet the hypotheses of each statement -/

theorem witness_DecodeReadsBackEveryCommand :
    Instr.wf (.uinit ⟨0xFFFFFFFF, 15, 15, 15, 15, 15, 15, 15⟩) = true ∧
      Instr.wf (.utx9 0xFFFF) = true := by decide

theorem witness_EveryLegalWordIsTheWordOfItsCommand :
    decode 0xFFFFFFFFFFFFFFF1 = .legal (.uinit ⟨0xFFFFFFFF, 15, 15, 15, 15, 15, 15, 15⟩) ∧
      decode 0xFF02 = .legal (.utx 0xFF) ∧ decode 0xFFFF0003 = .legal (.utx9 0xFFFF) := by decide

theorem witness_FieldsAreUnsignedBitRanges :
    (0xFFFFFFFFFFFFFFF1 : CmdWord).toNat % 16 = 1 ∧ (0xFF02 : CmdWord).toNat % 2 ^ 8 = 2 ∧
      (0xFF02 : CmdWord).toNat / 2 ^ 16 = 0 ∧ (0xFFFF0003 : CmdWord).toNat % 2 ^ 16 = 3 ∧
      (0xFFFF0003 : CmdWord).toNat / 2 ^ 32 = 0 := by decide

theorem witness_IllegalOpcodesRaiseTheirFault :
    (0xF0 : CmdWord).toNat % 16 = 0 ∧ 8 ≤ (0x8 : CmdWord).toNat % 16 ∧
      8 ≤ (0xFFFFFFFFFFFFFFFF : CmdWord).toNat % 16 ∧ fresh.seq = .idle ∧
      fresh.hostQueue = [] := by decide

theorem witness_ReservedBitsRaiseTheirFault :
    decode 0x12 = .illegal .reservedNonzero ∧ decode 0x10002 = .illegal .reservedNonzero ∧
      decode 0x8003 = .illegal .reservedNonzero ∧
      decode 0x8000000000000003 = .illegal .reservedNonzero ∧
      decode 0x17 = .illegal .reservedNonzero ∧ fresh.seq = .idle ∧ fresh.hostQueue = [] := by decide

theorem witness_UtxsExpandsToTheBytesBeforeTheNul :
    (0 : Byte) ∉ [0x01, 0xFF] ∧ (0 : Byte) ∉ ([] : List Byte) := by decide

theorem witness_AssemblerBoundsTransmitOperands :
    parseNumber (ascii "255") = some 0xFF ∧ parseNumber (ascii "256") = some 0x100 ∧
      parseNumber (ascii "0xFFFF") = some 0xFFFF ∧ parseNumber (ascii "65536") = some 0x10000 := by
  decide

theorem witness_StepRunsTheDecodedInstruction :
    decode 0x4102 = .legal (.utx 0x41) ∧ Instr.wf (.utx 0x41) = true ∧
      { fresh with script := [.issue 0x4102, .sequencer] }.seq = .idle ∧
      { fresh with script := [.issue 0x4102, .sequencer] }.hostQueue = [] ∧
      { fresh with
        seq := .busy (.utx 0x41)
        script := [.sequencer] }.seq = .busy (.utx 0x41) := by decide

/-- Nothing but snapshots. -/
def stillMoves (_ : Nat) : Move := .snapshot

/-- A run of snapshots stays where it is. -/
theorem still_isRun (s : State) : IsRun stillMoves fun _ => s := fun _ => rfl

theorem witness_PortAcceptsNothingUnlessIdle :
    { fresh with seq := .busy .urx }.seq ≠ .idle ∧
      { fresh with seq := .faulted .illegalOpcode 0 }.seq ≠ .idle ∧
      { fresh with hostQueue := [0x4102] }.hostQueue ≠ [] ∧
      IsRun stillMoves (fun _ => { fresh with seq := .faulted .illegalOpcode 0 }) ∧
      { fresh with seq := .faulted .illegalOpcode 0 }.failed ∧
      ∀ k u, 0 ≤ k → stillMoves k ≠ .reset u :=
  ⟨by decide, by decide, by decide, still_isRun _, ⟨_, _, rfl⟩, by rintro k u - ⟨⟩⟩

/-- A faulted state and each of the two kinds of move. -/
def faultedBefore (m : Move) : State :=
  { fresh with
    seq := .faulted .illegalOpcode 0
    script := [m] }

theorem witness_FaultLatchHoldsUntilReset :
    step (faultedBefore (.issue 0x4102)) = .next { faultedBefore .collect with script := [] } ∧
      step (faultedBefore (.reset true)) = .next (State.resetWith true) := by
  simp only [← nextOf_eq_some]; decide

theorem witness_RaisingAFaultWritesOnlyTheLatch :
    step { fresh with script := [.issue 0x8] } =
      .next { fresh with seq := .faulted .illegalOpcode 0x8 } ∧
    step { fresh with
      hostQueue := [0x8]
      script := [.issueNext] } = .next { fresh with seq := .faulted .illegalOpcode 0x8 } ∧
    step { fresh with
      seq := .busy (.uinit ⟨0, 1, 0, 3, 0, 0, 1, 0⟩)
      script := [.sequencer] } = .next { fresh with seq := .faulted .baudZero 0x01003011 } ∧
    fresh.seq = .idle := by
  simp only [← nextOf_eq_some]; decide

theorem witness_OnlyInitFaultsAtExecution :
    exec (.uinit ⟨0, 1, 0, 3, 0, 0, 1, 0⟩) fresh =
      .next { fresh with seq := .faulted .baudZero 0x01003011 } ∧ fresh.seq = .idle := by
  simp only [← nextOf_eq_some]; decide

theorem witness_InitWritesTheFieldTables : (1 : BitVec 32) ≠ 0 ∧ baseRecord.baud ≠ 0 := by decide

/-- The edges of the divisor's range, and just outside them. -/
theorem witness_InitWritesTheBaudDivisor :
    baudDivisor 16000000 16 1000000 = 0 ∧ baudDivisor 65536 16 1 = 4095 ∧
      baudDivisor 16000000 16 1000001 = -1 ∧ baudDivisor 65552 16 1 = 4096 ∧
      baseRecord.baud ≠ 0 := by decide

theorem witness_InitPreservesWhatItDoesNotOwn : baseRecord.baud ≠ 0 := by decide

theorem witness_InitWithBaudZeroFaults :
    (⟨0, 1, 0, 3, 0, 0, 1, 0⟩ : ConfigRecord).baud = 0 ∧
      decode 0x01003011 = .legal (.uinit ⟨0, 1, 0, 3, 0, 0, 1, 0⟩) := by decide

/-- INIT answers a next state from two states that differ. -/
theorem witness_InitForgetsThePriorState :
    baseRecord.baud ≠ 0 ∧
      (∃ t, exec (.uinit baseRecord) fresh = .next t) ∧
      ∃ t, exec (.uinit baseRecord) { fresh with upm := 3 } = .next t :=
  ⟨by decide, ⟨_, rfl⟩, ⟨_, rfl⟩⟩

theorem witness_InitIsIdempotent :
    (∃ t, exec (.uinit baseRecord) fresh = .next t) ∧
      exec (.uinit ⟨0, 0, 0, 0, 0, 0, 0, 0⟩) fresh =
        .next { fresh with seq := .faulted .baudZero 1 } :=
  ⟨⟨_, rfl⟩, by simp only [← nextOf_eq_some]; decide⟩

theorem witness_InitRateBracketsTheBaudRate :
    0 ≤ baudDivisor 65536 (oversampling 1) 1 ∧ baudDivisor 65536 (oversampling 1) 1 < 4096 ∧
      0 ≤ baudDivisor 16000000 (oversampling 2) 2000000 ∧
      (nextOf (initWith 65536 true ⟨1, 1, 0, 3, 0, 0, 1, 0⟩ fresh)).map State.ubrr = some 4095 := by
  decide

theorem witness_ScenarioAtSixteenMegahertz :
    fresh.cleanLaunch .afterReset ∧ (State.resetWith true).cleanLaunch .afterReset :=
  ⟨⟨false, rfl⟩, ⟨true, rfl⟩⟩

theorem witness_SizeTriplesAreDistinct :
    (0 : BitVec 4).toNat ≤ 4 ∧ (4 : BitVec 4).toNat ≤ 4 ∧ sizeBits 4 = sizeBits 4 ∧
      5 ≤ (5 : BitVec 4).toNat ∧ 5 ≤ (15 : BitVec 4).toNat := by decide

theorem witness_TransmitWithAnEmptyBuffer : fresh.txBuf = none := by decide

theorem witness_TransmitHoldsWhileTheBufferIsFull :
    Instr.transmits (.utx 0x42) = true ∧ Instr.transmits (.utx9 0x1A5) = true ∧
      (loaded true 0xFF).txBuf ≠ none ∧ (loaded true 0xFF).udre = false ∧
      { loaded true 0xFF with seq := .busy (.utx9 0x1A5) }.holdsTx ∧
      perform .snapshot { loaded true 0xFF with seq := .busy (.utx9 0x1A5) } =
        .next { loaded true 0xFF with seq := .busy (.utx9 0x1A5) } :=
  ⟨by decide, by decide, by decide, by decide, ⟨⟨.utx9 0x1A5, by decide, by decide⟩, by decide⟩,
    nextOf_eq_some.1 (by decide)⟩

theorem witness_TxWord9IgnoresBitsAboveTheNinth :
    (0xFFA5 : BitVec 16).toNat % 512 = (0x01A5 : BitVec 16).toNat % 512 := by decide

theorem witness_BufferedByteKeepsItsNinthBit :
    (loaded true 0x41).txBuf = some (true, 0x41) ∧
      perform .snapshot (loaded true 0x41) = .next (loaded true 0x41) ∧
      perform .txLoad (loaded true 0x41) =
        .next { fresh with txShift := some { frame41 with value9 := 0x141 } } := by
  simp only [← nextOf_eq_some]; decide

theorem witness_UtxsCommitsTheHostToItsWords :
    (0 : Byte) ∉ [0x48, 0x69] ∧ (0 : Byte) ∉ ([] : List Byte) := by decide

theorem witness_UtxsTransmitsItsBytesInOrder :
    (0 : Byte) ∉ [0x48, 0x69] ∧ fresh.seq = .idle ∧ fresh.hostQueue = [] ∧ fresh.txBuf = none ∧
      fresh.txShift = none ∧
      { fresh with
        script := [.issueText [0x48, 0x69, 0], .issueNext, .sequencer, .txLoad, .txShift, .issueNext,
          .sequencer, .txLoad, .txShift, .collect] }.script =
        .issueText ([0x48, 0x69] ++ 0 :: []) ::
          ([0x48, 0x69].flatMap (fun _ : Byte => [.issueNext, .sequencer, .txLoad, .txShift]) ++
            [.collect]) ∧
      [Move.collect].flatMap moveWords = [] := by decide

/-- Reset meets the invariant; with a UTX word in flight and one to come it still does. -/
theorem fresh_inv (q : List CmdWord) (hq : ∀ w ∈ q, w = 0x4202) (c : Seq)
    (hc : c = .idle ∨ c = .busy (.utx 0x41)) (script : List Move) :
    { fresh with
      hostQueue := q
      seq := c
      script := script }.Inv where
  mpcm := rfl
  depth := Nat.zero_le _
  size := (by unfold legalSize; decide : legalSize (BitVec.ofBool fresh.ucsz2 ++ fresh.ucsz))
  parity := (by unfold legalParity; decide : legalParity fresh.upm)
  oneIrq := ⟨rfl, rfl, rfl⟩
  speed := rfl
  shift := by rintro _ ⟨⟩
  trace := by rintro _ ⟨⟩
  inFlight := by rintro i rfl; simp_all [Instr.wf]
  fault := by rintro c w rfl; simp_all
  result := by rintro _ ⟨⟩
  collected := by rintro _ ⟨⟩
  queue := by intro w hw; rw [hq w hw]; exact ⟨0x42, by decide⟩

/-- TX_BYTE 0x41 in flight with the word of 0x42 to come. -/
def expanding (script : List Move) : State :=
  { fresh with
    hostQueue := [0x4202]
    seq := .busy (.utx 0x41)
    script := script }

theorem expanding_inv (script : List Move) : (expanding script).Inv :=
  fresh_inv _ (List.forall_mem_singleton.2 rfl) _ (.inr rfl) script

theorem witness_ExpansionKeepsItsBytesUnderEverySchedule :
    (expanding []).Inv ∧ (expanding []).hostQueue ≠ [] ∧
      (expanding []).seq = .busy (.utx 0x41) ∧
      perform .sequencer (expanding []) =
        .next { expanding [] with
          seq := .idle
          txBuf := some (false, 0x41) } ∧
      (expanding []).plannedBytes = [0x41, 0x42] :=
  ⟨expanding_inv _, by decide, by decide, nextOf_eq_some.1 (by decide), by decide⟩

theorem witness_ReceiveWithAFrameWaiting :
    (holding [⟨0xFF, true, true, true⟩] true).rxFifo = ⟨0xFF, true, true, true⟩ :: [] ∧
      (holding [cleanFrame 1, cleanFrame 2] false).rxFifo = cleanFrame 1 :: [cleanFrame 2] := by decide

theorem witness_ReceiveHoldsWhileTheBufferIsEmpty :
    Instr.receives .urxe = true ∧ fresh.rxFifo = [] ∧ fresh.rxc = false ∧
      { holding [] false with seq := .busy .urxe }.holdsRx ∧
      perform .rxOverrun { holding [] false with seq := .busy .urxe } =
        .next { holding [] false with seq := .busy .urxe } :=
  ⟨by decide, by decide, by decide, ⟨⟨.urxe, by decide, by decide⟩, by decide⟩,
    nextOf_eq_some.1 (by decide)⟩

theorem witness_FlagsMoveToTheNextFrame :
    (holding [cleanFrame 1, ⟨2, true, true, true⟩] true).rxFifo =
      cleanFrame 1 :: ⟨2, true, true, true⟩ :: [] ∧
    Instr.receives .urx = true ∧ Instr.receives .urx9 = true ∧ Instr.receives .urxe = true ∧
    exec .urxe (holding [cleanFrame 1, ⟨2, true, true, true⟩] true) =
      .next { holding [⟨2, true, true, true⟩] false with result := some 0x0201 } := by
  simp only [← nextOf_eq_some]; decide

theorem witness_ReceiveBufferChangesOneFrameAtATime :
    perform (.rxDeliver (cleanFrame 2)) (holding [cleanFrame 1] false) =
      .next (holding [cleanFrame 1, cleanFrame 2] false) ∧
    perform .rxOverrun (holding [cleanFrame 1] false) = .next (holding [cleanFrame 1] false) ∧
    perform .sequencer { holding [cleanFrame 1, cleanFrame 2] false with seq := .busy .urx } =
      .next { holding [cleanFrame 2] false with result := some 1 } := by
  simp only [← nextOf_eq_some]; decide

/-- A frame arrives first, and then nothing but snapshots. -/
def arrivalMoves : Nat → Move
  | 0 => .rxDeliver (cleanFrame 1)
  | _ + 1 => .snapshot

/-- The states of the run of `arrivalMoves`. -/
def arrivalStates : Nat → State
  | 0 => holding [] false
  | _ + 1 => holding [cleanFrame 1] false

theorem witness_ReceiveHoldWithReceiverOffIsForever :
    { fresh with seq := .busy .urx9 }.holdsRx ∧ { fresh with seq := .busy .urx9 }.rxen = false ∧
      perform .rxOverrun { fresh with seq := .busy .urx9 } =
        .next { fresh with seq := .busy .urx9 } ∧
      IsRun stillMoves (fun _ => { fresh with seq := .busy .urx9 }) ∧
      (∀ k u, 0 ≤ k → stillMoves k ≠ .reset u) ∧
      IsRun arrivalMoves arrivalStates ∧ (∀ k, 0 ≤ k → (arrivalStates k).rxen = true) ∧
      FrameArrives arrivalMoves 0 := by
  refine ⟨⟨⟨.urx9, by decide, by decide⟩, by decide⟩, by decide, nextOf_eq_some.1 (by decide),
    still_isRun _, by rintro k u - ⟨⟩, ?_, ?_, ⟨0, _, Nat.le_refl _, rfl⟩⟩
  · rintro (_ | n)
    · exact nextOf_eq_some.1 (by decide)
    · rfl
  · rintro (_ | n) - <;> rfl

/-- UDIS is issued and executed, and then nothing but snapshots. -/
def disableMoves : Nat → Move
  | 0 => .issue 0x07
  | 1 => .sequencer
  | _ + 2 => .snapshot

/-- The states of the run of `disableMoves`. -/
def disableStates : Nat → State
  | 1 => { fresh with seq := .busy .udis }
  | _ => fresh

theorem disable_issued (n : Nat) : issuedBefore disableMoves disableStates (n + 1) = [0x07] := by
  induction n with
  | zero => decide
  | succ n ih => rw [issuedBefore, ih]; cases n <;> rfl

/-- V-DIS-3 as a host program of one word: its run ends after two moves (70_reset_and_hazards.md R280). -/
theorem test_program_ends :
    IsRunOf [0x07] disableMoves disableStates ∧ HasEnded [0x07] disableMoves disableStates 2 := by
  refine ⟨⟨?_, ?_⟩, by decide, by decide, ⟨by decide, by decide, by decide⟩, ?_⟩
  · rintro (_ | _ | n)
    · exact nextOf_eq_some.1 (by decide)
    · exact nextOf_eq_some.1 (by decide)
    · rfl
  · rintro (_ | n)
    · exact List.nil_prefix
    · rw [disable_issued]
  · rintro ⟨k, hk, c, w, h⟩
    interval_cases k <;> cases h

theorem witness_EmptyViewsChangeOnlyAsTheBufferEmpties :
    perform .rxOverrun (holding [] false) = .next (holding [] false) ∧
      ∃ t, perform .sequencer { holding [cleanFrame 1] false with seq := .busy .urx } = .next t ∧
        t.rxFifo = [] :=
  ⟨nextOf_eq_some.1 (by decide), _, rfl, rfl⟩

theorem witness_LineTx :
    (loaded false 0x41).txBuf = some (false, 0x41) ∧ (loaded false 0x41).txShift = none ∧
      fresh.txBuf = none ∧ { fresh with txShift := some frame41 }.txShift = some frame41 ∧
      { fresh with txShift := some frame41 }.txShift ≠ none := by decide

/-- A buffer one below its depth, and at its depth; the receiver off. -/
theorem witness_LineRxDeliversOrOverruns :
    (holding [cleanFrame 1] false).rxen = true ∧
      (holding [cleanFrame 1] false).rxFifo.length < Config.rxDepth ∧
      (holding [cleanFrame 1, cleanFrame 2] false).rxFifo.length = Config.rxDepth ∧
      fresh.rxen = false := by decide

theorem witness_LineAgentsKeepToTheLineSide :
    perform .txLoad (loaded false 0x41) = .next { fresh with txShift := some frame41 } ∧
    perform .txShift { fresh with txShift := some frame41 } =
      .next { fresh with
        txTrace := [frame41]
        txc := true } ∧
    perform (.rxDeliver (cleanFrame 1)) (holding [] false) = .next (holding [cleanFrame 1] false) ∧
    perform .rxOverrun (holding [cleanFrame 1, cleanFrame 2] false) =
      .next (holding [cleanFrame 1, cleanFrame 2] true) := by
  simp only [← nextOf_eq_some]; decide

/-- TX_BYTE 0x42 waiting behind 0x41 with the transmitter on. -/
def waiting (buf : Option (Bit × Byte)) (shift : Option TxFrame) (trace : List TxFrame) (txc : Bit) :
    State :=
  { fresh with
    txen := true
    seq := .busy (.utx 0x42)
    txBuf := buf
    txShift := shift
    txTrace := trace
    txc := txc }

/-- A load, a shift, and then nothing but snapshots. -/
def fairMoves : Nat → Move
  | 0 => .txLoad
  | 1 => .txShift
  | _ + 2 => .snapshot

/-- The states of the run of `fairMoves`. -/
def fairStates : Nat → State
  | 0 => waiting (some (false, 0x41)) none [] false
  | 1 => waiting none (some frame41) [] false
  | _ + 2 => waiting none none [frame41] true

theorem fairStates_late (n : Nat) : fairStates (n + 2) = waiting none none [frame41] true := rfl

theorem witness_FairTransmitHoldsLift :
    IsRun fairMoves fairStates ∧ FairTx fairMoves fairStates ∧ (fairStates 0).holdsTx ∧
      ∀ k, 0 ≤ k → (fairStates k).txen = true := by
  refine ⟨?_, ⟨fun n h => ?_, fun n h => ?_⟩, ⟨⟨.utx 0x42, by decide, by decide⟩, by decide⟩, ?_⟩
  · rintro (_ | _ | n)
    · exact nextOf_eq_some.1 (by decide)
    · exact nextOf_eq_some.1 (by decide)
    · rfl
  · exact absurd rfl (h (n + 2) (by omega)).2.1
  · exact absurd rfl (h (n + 2) (by omega)).2
  · rintro (_ | _ | n) - <;> rfl

theorem witness_HostCollectsAndObserves :
    { fresh with result := some 0x0211 }.result = some 0x0211 ∧ fresh.result = none := by decide

theorem witness_StepKeepsTheInvariant :
    (expanding [.sequencer]).Inv ∧
      step (expanding [.sequencer]) =
        .next { expanding [] with
          seq := .idle
          txBuf := some (false, 0x41) } :=
  ⟨expanding_inv _, nextOf_eq_some.1 (by decide)⟩

theorem witness_StepAlwaysAnswersANextState : (expanding [.txLoad]).Inv := expanding_inv _

theorem witness_HandedOverStreamGrowsInOrder :
    perform .sequencer { fresh with seq := .busy (.utx 0x41) } = .next (loaded false 0x41) ∧
    perform .txLoad (loaded false 0x41) = .next { fresh with txShift := some frame41 } ∧
    perform (.reset false) (loaded false 0x41) = .next fresh := by
  simp only [← nextOf_eq_some]; decide

theorem witness_TraceOnlyGrows :
    perform .txShift { fresh with txShift := some frame41 } =
      .next { fresh with
        txTrace := [frame41]
        txc := true } ∧
    perform (.reset false) { fresh with txTrace := [frame41] } = .next fresh ∧
    perform .snapshot { fresh with txTrace := [frame41] } =
      .next { fresh with txTrace := [frame41] } := by
  simp only [← nextOf_eq_some]; decide

theorem witness_ControlFieldsHaveTheirWriters :
    perform .sequencer { fresh with
      seq := .busy .udis
      txen := true } = .next fresh ∧
    fresh.controls ≠ { fresh with txen := true }.controls ∧
    perform .sequencer { fresh with seq := .busy (.utx 0x41) } = .next (loaded false 0x41) := by
  simp only [← nextOf_eq_some]; decide

theorem witness_TxcIsSetByTheLastFrameAndStays :
    perform .txShift { fresh with txShift := some frame41 } =
      .next { fresh with
        txTrace := [frame41]
        txc := true } ∧
    perform .txShift { loaded false 0x42 with txShift := some frame41 } =
      .next { loaded false 0x42 with txTrace := [frame41] } ∧
    perform (.reset false) { fresh with txc := true } = .next fresh := by
  simp only [← nextOf_eq_some]; decide

theorem witness_DorIsSetByOverrunAndClearedByARead :
    perform .rxOverrun (holding [cleanFrame 1, cleanFrame 2] false) =
      .next (holding [cleanFrame 1, cleanFrame 2] true) ∧
    perform .sequencer { holding [cleanFrame 1, cleanFrame 2] true with seq := .busy .urx } =
      .next { holding [cleanFrame 2] false with result := some 1 } ∧
    perform (.reset false) { fresh with dor := true } = .next fresh := by
  simp only [← nextOf_eq_some]; decide

end Sys2Proof.Tests
end

section
/-! The invariant of the block (10_state.md R35, R38, R50): each operation of the model keeps it, and so does
every move of every agent. Facts of the encoder that a latched fault and the host's queue rest on come
first. -/

namespace Sys2Proof

/-- TX_BYTE's word decodes to TX_BYTE with its byte (30_encoding.md R103). -/
theorem decode_utxWord (d : Byte) : decode (utxWord d) = .legal (.utx d) := by
  have h := utxWord_toNat d
  have hd := d.isLt
  have hfield : CmdWord.field (utxWord d) 8 8 = d := by
    rw [← BitVec.toNat_inj, CmdWord.toNat_field]
    omega
  rw [decode_eq, if_neg (by omega), if_pos (by omega), if_pos (by omega), hfield]

/-- The packed record of INIT's word is the record it was built from (30_encoding.md R93). -/
theorem configRecord_initWord (c : ConfigRecord) : CmdWord.configRecord (initWord c) = c := by
  have h := initWord_toNat c
  have hmode := c.mode.isLt
  have hduplex := c.duplex.isLt
  have hsize := c.size.isLt
  have hparity := c.parity.isLt
  have hstop := c.stop.isLt
  have hpol := c.pol.isLt
  have hirq := c.irq.isLt
  have hbaud := c.baud.isLt
  cases c
  simp only [CmdWord.configRecord, ConfigRecord.mk.injEq, ← BitVec.toNat_inj, CmdWord.toNat_field, h]
  simp only at hmode hduplex hsize hparity hstop hpol hirq hbaud
  omega

/-- INIT's word decodes to INIT with its record (30_encoding.md R91, R109). -/
theorem decode_initWord (c : ConfigRecord) : decode (initWord c) = .legal (.uinit c) := by
  have h := initWord_toNat c
  rw [decode_eq, if_pos (by omega), configRecord_initWord]

/-- A command the decoder answers has an opcode (30_encoding.md R106). -/
theorem wf_of_decode_legal {w : CmdWord} {i : Instr} (h : decode w = .legal i) : i.wf = true := by
  rw [decode_eq] at h
  split_ifs at h <;> cases h <;> rfl

namespace Machine

/-- A fault of the decoder explains its word: the decoder never answers BAUD_ZERO (60_exceptions.md R237). -/
theorem faultExplains_of_decode_illegal {w : CmdWord} {c : FaultCode} (h : decode w = .illegal c) :
    faultExplains c w := by
  cases c with
  | illegalOpcode => exact h
  | reservedNonzero => exact h
  | baudZero =>
    rw [decode_eq] at h
    split_ifs at h <;> cases h

/-- INIT's own fault explains INIT's word (40_configuration.md R134). -/
theorem faultExplains_baudZero {cfg : ConfigRecord} (h : cfg.baud = 0) :
    faultExplains .baudZero (initWord cfg) :=
  ⟨cfg, decode_initWord cfg, h⟩

/-! ### INIT's tables stay inside the invariant (10_state.md R38, R61; 40_configuration.md R141) -/

theorem sizeBits_legal : ∀ x, legalSize (BitVec.ofBool (sizeBits x).1 ++ (sizeBits x).2) := by
  unfold legalSize; decide

theorem parityBits_legal : ∀ x, legalParity (parityBits x) := by
  unfold legalParity; decide

theorem irqBits_atMostOne : ∀ x, ((irqBits x).1 && (irqBits x).2.1) = false ∧
    ((irqBits x).1 && (irqBits x).2.2) = false ∧ ((irqBits x).2.1 && (irqBits x).2.2) = false := by
  decide

theorem modeBits_speed : ∀ x, ((modeBits x).1 && (modeBits x).2) = false := by
  decide

/-! ### Operations that keep the invariant -/

variable {s t : State}

theorem State.Inv.setSeq {q : Seq} (hi : s.Inv) (hcmd : ∀ i, q = .busy i → i.wf = true)
    (hfault : ∀ c w, q = .faulted c w → faultExplains c w) : (s.setSeq q).Inv :=
  { hi with inFlight := hcmd, fault := hfault }

theorem State.Inv.setSeq_idle (hi : s.Inv) : (s.setSeq .idle).Inv :=
  hi.setSeq nofun nofun

theorem State.Inv.setHostQueue {q : List CmdWord} (hi : s.Inv)
    (hq : ∀ w ∈ q, ∃ d, decode w = .legal (.utx d)) : (s.setHostQueue q).Inv :=
  { hi with queue := hq }

theorem State.Inv.setResult {r : Option ResultWord} (hi : s.Inv)
    (hr : ∀ x, r = some x → legalResult x) : (s.setResult r).Inv :=
  { hi with result := hr }

theorem State.Inv.setCollected {rs : List ResultWord} (hi : s.Inv)
    (hr : ∀ r ∈ rs, legalResult r) : (s.setCollected rs).Inv :=
  { hi with collected := hr }

theorem State.Inv.setTxBuf (hi : s.Inv) (b : Option (Bit × Byte)) : (s.setTxBuf b).Inv :=
  { hi with }

theorem State.Inv.setTxb8 (hi : s.Inv) (v : Bit) : (s.setTxb8 v).Inv :=
  { hi with }

theorem State.Inv.setTxc (hi : s.Inv) (v : Bit) : (s.setTxc v).Inv :=
  { hi with }

theorem State.Inv.setDor (hi : s.Inv) (v : Bit) : (s.setDor v).Inv :=
  { hi with }

theorem State.Inv.setDuplex (hi : s.Inv) (v : Bit × Bit) : (s.setDuplex v).Inv :=
  { hi with }

theorem State.Inv.setTxShift {f : Option TxFrame} (hi : s.Inv)
    (hf : ∀ x, f = some x → x.legal) : (s.setTxShift f).Inv :=
  { hi with shift := hf }

theorem State.Inv.setTxTrace {fs : List TxFrame} (hi : s.Inv)
    (hf : ∀ f ∈ fs, f.legal) : (s.setTxTrace fs).Inv :=
  { hi with trace := hf }

theorem State.Inv.setRxFifo {fs : List RxEntry} (hi : s.Inv)
    (hf : fs.length ≤ Config.rxDepth) : (s.setRxFifo fs).Inv :=
  { hi with depth := hf }

theorem State.Inv.redrawEmptyView (hi : s.Inv) : s.redrawEmptyView.Inv :=
  { hi with }

theorem State.Inv.replaceRx {fs : List RxEntry} (hi : s.Inv)
    (hf : fs.length ≤ Config.rxDepth) : (s.replaceRx fs).Inv := by
  unfold State.replaceRx
  split
  · exact (hi.setRxFifo hf).redrawEmptyView
  · exact hi.setRxFifo hf

theorem State.Inv.flushIfDisabled (hi : s.Inv) (flush : Bool) (e : Bit) :
    (flushIfDisabled flush e s).Inv := by
  unfold Machine.flushIfDisabled
  split
  · exact hi.replaceRx (Nat.zero_le _)
  · exact hi

theorem State.Inv.initFields (hi : s.Inv) (clock : Nat) (cfg : ConfigRecord) :
    (initFields clock cfg s).Inv :=
  { hi with
    size := sizeBits_legal cfg.size
    parity := parityBits_legal cfg.parity
    oneIrq := irqBits_atMostOne cfg.irq
    speed := modeBits_speed cfg.mode }

theorem State.Inv.advance (hi : s.Inv) : s.advance.Inv := by
  unfold State.advance
  split <;> exact { hi with }

/-- The frame a load makes carries the state's format (44_line_side.md R216). -/
theorem State.Inv.frameOf_legal (hi : s.Inv) (b8 : Bit) (d : Byte) : (frameOf b8 d s).legal :=
  ⟨hi.size, hi.parity⟩

/-! ### Reset (10_state.md R60) -/

theorem resetWith_inv (u : Bit) : (State.resetWith u).Inv where
  mpcm := rfl
  depth := Nat.zero_le _
  size := sizeBits_legal 3
  parity := parityBits_legal 0
  oneIrq := ⟨rfl, rfl, rfl⟩
  speed := rfl
  shift := nofun
  trace := nofun
  inFlight := nofun
  fault := nofun
  result := nofun
  collected := nofun
  queue := nofun

theorem State.Inv.resetInput (hi : s.Inv) (u : Bit) : (resetInput u s).Inv :=
  { resetWith_inv u with collected := hi.collected }

/-! ### The port and the host -/

theorem utxWords_decode (text : List Byte) :
    ∀ w ∈ (textBytes text).map utxWord, ∃ d, decode w = .legal (.utx d) := by
  intro w hw
  obtain ⟨d, -, rfl⟩ := List.mem_map.1 hw
  exact ⟨d, decode_utxWord d⟩

/-- What the port takes up is a command or a fault of its word (30_encoding.md R109). -/
theorem State.Inv.acceptWord (hi : s.Inv) (w : CmdWord) : (acceptWord w s).Inv := by
  unfold Machine.acceptWord
  split
  next i hd => exact hi.setSeq (by rintro _ ⟨⟩; exact wf_of_decode_legal hd) nofun
  next c hd => exact hi.setSeq nofun (by rintro _ _ ⟨⟩; exact faultExplains_of_decode_illegal hd)

theorem State.Inv.hostIssue (hi : s.Inv) (w : CmdWord) : (hostIssue w s).Inv := by
  obtain ⟨-, -, h⟩ | ⟨-, h⟩ := hostIssue_cases w s <;> rw [h]
  · exact hi.acceptWord w
  · exact hi

theorem State.Inv.hostIssueNext (hi : s.Inv) : (hostIssueNext s).Inv := by
  obtain ⟨w, rest, -, hq, h⟩ | ⟨-, h⟩ := hostIssueNext_cases s <;> rw [h]
  · refine (hi.setHostQueue fun v hv => hi.queue v ?_).acceptWord w
    rw [hq]
    exact List.mem_cons_of_mem w hv
  · exact hi

theorem State.Inv.hostIssueText {text : List Byte} (hi : s.Inv)
    (hn : hostIssueText text s = .next t) : t.Inv := by
  obtain ⟨-, -, h⟩ | ⟨-, h⟩ := hostIssueText_cases text s <;> rw [h] at hn <;> cases hn
  · exact (hi.setHostQueue (utxWords_decode text)).setSeq_idle
  · exact hi

theorem State.Inv.hostCollect (hi : s.Inv) : (hostCollect s).Inv := by
  obtain ⟨-, h⟩ | ⟨r, hr, h⟩ := hostCollect_cases s <;> rw [h]
  · exact hi
  · refine (hi.setCollected fun x hx => ?_).setResult nofun
    obtain hx | hx := List.mem_append.1 hx
    · exact hi.collected x hx
    · rw [List.mem_singleton.1 hx]
      exact hi.result r hr

/-! ### The line agents -/

theorem State.Inv.lineTxLoad (hi : s.Inv) : (lineTxLoad s).Inv := by
  obtain ⟨b8, d, -, -, h⟩ | ⟨-, h⟩ := lineTxLoad_cases s <;> rw [h]
  · exact (hi.setTxShift (by rintro _ ⟨⟩; exact hi.frameOf_legal b8 d)).setTxBuf none
  · exact hi

theorem State.Inv.lineTxShift (hi : s.Inv) : (lineTxShift s).Inv := by
  obtain ⟨f, hf, h⟩ | ⟨-, h⟩ := lineTxShift_cases s <;> rw [h]
  · refine ((hi.setTxTrace fun x hx => ?_).setTxShift (by nofun)).setTxc _
    obtain hx | hx := List.mem_append.1 hx
    · exact hi.trace x hx
    · rw [List.mem_singleton.1 hx]
      exact hi.shift f hf
  · exact hi

theorem State.Inv.lineRxDeliver (hi : s.Inv) (e : RxEntry) : (lineRxDeliver e s).Inv := by
  obtain ⟨-, hlt, h⟩ | h := lineRxDeliver_cases e s <;> rw [h]
  · exact hi.setRxFifo (by rw [List.length_append]; exact hlt)
  · exact hi

theorem State.Inv.lineRxOverrun (hi : s.Inv) : (lineRxOverrun s).Inv := by
  obtain ⟨-, -, h⟩ | h := lineRxOverrun_cases s <;> rw [h]
  · exact hi.setDor true
  · exact hi

/-! ### The commands and the moves -/

/-- Executing a command keeps the invariant, by the ways an execution can end. -/
theorem State.Inv.exec {i : Instr} (hi : s.Inv) (hn : exec i s = .next t) : t.Inv := by
  obtain ⟨cfg, -, ⟨hb, rfl⟩ | ⟨-, rfl⟩⟩ | ⟨-, rfl⟩ | ⟨-, -, rfl⟩ | ⟨d, -, -, rfl⟩ | ⟨w, b, -, -, -, rfl⟩ |
    ⟨-, -, rfl⟩ | ⟨h, rest, r, -, hf, hr, rfl⟩ | ⟨x, -, rfl⟩ := exec_next hn
  · exact hi.setSeq nofun (by rintro _ _ ⟨⟩; exact faultExplains_baudZero hb)
  · exact ((hi.initFields _ cfg).flushIfDisabled _ _).setSeq_idle
  · exact ((hi.setDuplex _).flushIfDisabled _ _).setSeq_idle
  · exact hi
  · exact (hi.setTxBuf _).setSeq_idle
  · exact ((hi.setTxb8 b).setTxBuf _).setSeq_idle
  · exact hi
  · have hd : rest.length + 1 ≤ Config.rxDepth := by simpa [hf] using hi.depth
    refine (((hi.setDor false).replaceRx (by omega)).setResult ?_).setSeq_idle
    rintro _ ⟨⟩
    exact hr
  · refine (hi.setHostQueue fun w hw => ?_).setSeq_idle
    obtain hw | hw := List.mem_append.1 hw
    · exact utxWords_decode x w hw
    · exact hi.queue w hw

theorem State.Inv.sequencerStep (hi : s.Inv) (hn : sequencerStep s = .next t) : t.Inv := by
  obtain ⟨i, -, -, h⟩ | ⟨-, rfl⟩ := sequencerStep_next hn
  · exact hi.exec h
  · exact hi

/-- Every move of every agent keeps the invariant. -/
theorem State.Inv.perform {m : Move} (hi : s.Inv) (hn : perform m s = .next t) : t.Inv := by
  obtain ⟨w, -, rfl⟩ | ⟨text, -, h⟩ | ⟨-, rfl⟩ | ⟨-, rfl⟩ | ⟨-, rfl⟩ | ⟨u, -, rfl⟩ | ⟨-, h⟩ | ⟨-, rfl⟩ |
    ⟨-, rfl⟩ | ⟨e, -, rfl⟩ | ⟨-, rfl⟩ := perform_next hn
  · exact hi.hostIssue w
  · exact hi.hostIssueText h
  · exact hi.hostIssueNext
  · exact hi.hostCollect
  · exact hi
  · exact hi.resetInput u
  · exact hi.sequencerStep h
  · exact hi.lineTxLoad
  · exact hi.lineTxShift
  · exact hi.lineRxDeliver e
  · exact hi.lineRxOverrun

/-- Settles O53: a step is one move from the state with its script advanced. -/
theorem stepKeepsTheInvariant : Obligations.StepKeepsTheInvariant :=
  fun _ _ hi hn => hi.advance.perform hn

/-- Settles O54. -/
theorem resetMeetsTheInvariant : Obligations.ResetMeetsTheInvariant :=
  ⟨resetWith_inv _, resetWith_inv⟩

end Machine
end Sys2Proof
end

section
/-! The register views (10_state.md R58, R60) and what each move writes of the trace, the control fields, TXC
and DOR (R33 to R52): one lemma on `exec` and one on each other move, assembled over the cases of
`perform`. -/

namespace Sys2Proof.Machine

variable {s t : State} {i : Instr} {m : Move}

/-! ### Register views -/

/-- The baud register above its low byte fits the low seven bits of UBRRH. -/
theorem ubrrHigh_toNat (v : BitVec Config.ubrrBits) :
    ((v >>> 8).setWidth 7).toNat = v.toNat / 256 := by
  have hv : v.toNat < 4096 := v.isLt
  rw [BitVec.toNat_setWidth, BitVec.toNat_ushiftRight, Nat.shiftRight_eq_div_pow]
  omega

/-- Settles O51: each view is a concatenation of bits. -/
theorem registerViewsHaveTheirLayout : Obligations.RegisterViewsHaveTheirLayout := by
  intro s
  refine ⟨?_, ?_, ?_, ?_, ?_⟩
  · simp only [State.ucsra, toNat_append_eq, BitVec.toNat_ofBool]
    omega
  · simp only [State.ucsrb, toNat_append_eq, BitVec.toNat_ofBool]
    omega
  · simp only [State.ucsrc, toNat_append_eq, BitVec.toNat_ofBool]
    omega
  · simp only [State.ubrrh, toNat_append_eq, BitVec.toNat_ofBool, ubrrHigh_toNat]
    omega
  · exact BitVec.toNat_setWidth _ _

/-- Settles O48: the views are literals, and the reset input is idempotent. -/
theorem resetViewsAndLaunch : Obligations.ResetViewsAndLaunch := by
  refine ⟨fun u => ?_, ⟨Config.urselAtReset, rfl⟩, fun u s => ⟨resetInput u s, rfl, ⟨u, rfl⟩, ?_, ?_⟩⟩
  · cases u <;> decide
  · exact ⟨rfl, rfl, rfl, rfl, rfl, rfl⟩
  · exact ⟨rfl, rfl⟩

/-! ### Receive commands -/

/-- The receive commands differ in their result word alone (42_receive.md R185, R187). -/
theorem exec_of_receives (hi : i.receives = true) (s : State) : ∃ r, exec i s = receive r s := by
  cases i with
  | urx => exact ⟨_, exec_urx s⟩
  | urx9 => exact ⟨_, exec_urx9 s⟩
  | urxe => exact ⟨_, exec_urxe s⟩
  | uinit _ | utx _ | utx9 _ | udis | utxs _ => cases hi

/-- A receive command with a frame waiting drains it, clears DOR and leaves some result. -/
theorem exec_receives_cons {h : RxEntry} {rest : List RxEntry} (hi : i.receives = true)
    (hs : s.rxFifo = h :: rest) (hn : exec i s = .next t) :
    ∃ r, t = (((s.setDor false).replaceRx rest).setResult (some r)).setSeq .idle := by
  obtain ⟨resultOf, hr⟩ := exec_of_receives hi s
  rw [hr, receive_cons hs] at hn
  cases hn
  exact ⟨_, rfl⟩

/-- Settles O37: the buffer now starts with the second frame, whose flags the views read. -/
theorem flagsMoveToTheNextFrame : Obligations.FlagsMoveToTheNextFrame := by
  intro i s t h g rest hi hs hn
  obtain ⟨r, rfl⟩ := exec_receives_cons hi hs hn
  simp [State.rxc, State.fe, State.pe, State.rxb8]

/-! ### What each execution leaves -/

/-- No command writes what Line-TX owns but the transmit buffer (10_state.md R36, R49, R52). -/
theorem exec_lineTx_frame (hn : exec i s = .next t) :
    t.txTrace = s.txTrace ∧ t.txc = s.txc ∧ t.txShift = s.txShift := by
  obtain ⟨cfg, -, ⟨-, rfl⟩ | ⟨-, rfl⟩⟩ | ⟨-, rfl⟩ | ⟨-, -, rfl⟩ | ⟨d, -, -, rfl⟩ | ⟨w, b, -, -, -, rfl⟩ |
    ⟨-, -, rfl⟩ | ⟨h, rest, r, -, -, -, rfl⟩ | ⟨x, -, rfl⟩ := exec_next hn <;> simp

theorem exec_dor_of_read (hi : i.receives = true) (hs : s.rxFifo ≠ []) (hn : exec i s = .next t) :
    t.dor = false := by
  obtain ⟨h, rest, hs⟩ := List.exists_cons_of_ne_nil hs
  obtain ⟨r, rfl⟩ := exec_receives_cons hi hs hn
  simp

theorem exec_dor_of_no_read (hr : ¬ (i.receives = true ∧ s.rxFifo ≠ [])) (hn : exec i s = .next t) :
    t.dor = s.dor := by
  obtain ⟨cfg, -, ⟨-, rfl⟩ | ⟨-, rfl⟩⟩ | ⟨-, rfl⟩ | ⟨-, -, rfl⟩ | ⟨d, -, -, rfl⟩ | ⟨w, b, -, -, -, rfl⟩ |
    ⟨-, -, rfl⟩ | ⟨h, rest, r, hi, hs, -, rfl⟩ | ⟨x, -, rfl⟩ := exec_next hn
  · rfl
  · simp
  · simp
  · rfl
  · rfl
  · rfl
  · rfl
  · exact absurd ⟨hi, by simp [hs]⟩ hr
  · rfl

/-! ### Which execution writes which control field (10_state.md R35, R38, R39, R41, R46) -/

/-- What executing the command `i` leaves as it turns the control fields `c` into `d`. -/
structure WritesControls (i : Instr) (c d : Controls) : Prop where
  mpcm : d.mpcm = c.mpcm
  txb8 : (∀ w, i ≠ .utx9 w) → d.txb8 = c.txb8
  enables : (∀ cfg, i ≠ .uinit cfg) → i ≠ .udis → d.txen = c.txen ∧ d.rxen = c.rxen
  others : (∀ cfg, i ≠ .uinit cfg) → d = { c with txb8 := d.txb8, txen := d.txen, rxen := d.rxen }

/-- An execution completes with the control fields its command may write, or leaves them all: INIT's fault
and a hold write none (40_configuration.md R134; 41_transmit.md R170; 42_receive.md R185). -/
theorem exec_controls (hn : exec i s = .next t) :
    t.controls = s.controls ∨ (t.seq = .idle ∧ WritesControls i s.controls t.controls) := by
  obtain ⟨cfg, rfl, ⟨-, rfl⟩ | ⟨-, rfl⟩⟩ | ⟨rfl, rfl⟩ | ⟨-, -, rfl⟩ | ⟨d, -, -, rfl⟩ |
    ⟨w, b, rfl, -, -, rfl⟩ | ⟨-, -, rfl⟩ | ⟨h, rest, r, -, -, -, rfl⟩ | ⟨x, -, rfl⟩ := exec_next hn
  · exact .inl rfl
  · refine .inr ⟨rfl, ?_, fun _ => ?_, fun h => absurd rfl (h cfg), fun h => absurd rfl (h cfg)⟩ <;>
      simp [State.controls]
  · refine .inr ⟨rfl, ?_, fun _ => ?_, fun _ h => absurd rfl h, fun _ => ?_⟩ <;>
      simp [State.controls]
  · exact .inl rfl
  · exact .inl rfl
  · exact .inr ⟨rfl, rfl, fun h => absurd rfl (h w), fun _ _ => ⟨rfl, rfl⟩, fun _ => rfl⟩
  · exact .inl rfl
  · exact .inl (by simp [State.controls])
  · exact .inl rfl

/-! ### What a move other than reset writes -/

/-- `t` is `s` but for the sequencer state and the host's side. -/
def HostSideOnly (s t : State) : Prop :=
  t = { s with seq := t.seq, hostQueue := t.hostQueue, result := t.result, collected := t.collected }

theorem HostSideOnly.of_eq (h : t = s) : HostSideOnly s t := by
  rw [h]; rfl

theorem HostSideOnly.txTrace (h : HostSideOnly s t) : t.txTrace = s.txTrace := by rw [h]

theorem HostSideOnly.txc (h : HostSideOnly s t) : t.txc = s.txc := by rw [h]

theorem HostSideOnly.dor (h : HostSideOnly s t) : t.dor = s.dor := by rw [h]

theorem HostSideOnly.controls (h : HostSideOnly s t) : t.controls = s.controls := by rw [h]; rfl

theorem hostIssue_hostSideOnly (w : CmdWord) (s : State) : HostSideOnly s (hostIssue w s) := by
  obtain ⟨-, -, h⟩ | ⟨-, h⟩ := hostIssue_cases w s
  · rw [h, acceptWord_eq]; rfl
  · exact .of_eq h

theorem hostIssueText_hostSideOnly {text : List Byte} (hn : hostIssueText text s = .next t) :
    HostSideOnly s t := by
  obtain ⟨-, -, h⟩ | ⟨-, h⟩ := hostIssueText_cases text s <;> rw [h] at hn <;> cases hn <;> rfl

theorem hostIssueNext_hostSideOnly (s : State) : HostSideOnly s (hostIssueNext s) := by
  obtain ⟨w, rest, -, -, h⟩ | ⟨-, h⟩ := hostIssueNext_cases s
  · rw [h, acceptWord_eq]; rfl
  · exact .of_eq h

theorem hostCollect_hostSideOnly (s : State) : HostSideOnly s (hostCollect s) := by
  obtain ⟨-, h⟩ | ⟨r, -, h⟩ := hostCollect_cases s
  · exact .of_eq h
  · rw [h]; rfl

/-- A move of the host, or one that is not enabled, writes the host's side at most; else the move is an
execution or the step of a line agent. -/
theorem perform_writes (hn : perform m s = .next t) (hm : ∀ u, m ≠ .reset u) :
    HostSideOnly s t ∨
    (m = .sequencer ∧ ∃ i, s.seq = .busy i ∧ exec i s = .next t) ∨
    (∃ f b, t = (s.setTxShift f).setTxBuf b) ∨
    (m = .txShift ∧ ∃ f, s.txShift = some f ∧
      t = ((s.setTxTrace (s.txTrace ++ [f])).setTxShift none).setTxc (s.txc || s.txBuf.isNone)) ∨
    (∃ es, t = s.setRxFifo es) ∨
    (m = .rxOverrun ∧ s.rxen = true ∧ s.rxFifo.length = Config.rxDepth ∧ t = s.setDor true) := by
  obtain ⟨w, -, rfl⟩ | ⟨text, -, h⟩ | ⟨-, rfl⟩ | ⟨-, rfl⟩ | ⟨-, rfl⟩ | ⟨u, h, -⟩ | ⟨rfl, h⟩ | ⟨-, rfl⟩ |
    ⟨rfl, rfl⟩ | ⟨e, -, rfl⟩ | ⟨rfl, rfl⟩ := perform_next hn
  · exact .inl (hostIssue_hostSideOnly w s)
  · exact .inl (hostIssueText_hostSideOnly h)
  · exact .inl (hostIssueNext_hostSideOnly s)
  · exact .inl (hostCollect_hostSideOnly s)
  · exact .inl (.of_eq rfl)
  · exact absurd h (hm u)
  · obtain ⟨i, hi, -, hx⟩ | ⟨-, h⟩ := sequencerStep_next h
    · exact .inr (.inl ⟨rfl, i, hi, hx⟩)
    · exact .inl (.of_eq h)
  · obtain ⟨b8, d, -, -, h⟩ | ⟨-, h⟩ := lineTxLoad_cases s
    · exact .inr (.inr (.inl ⟨_, _, h⟩))
    · exact .inl (.of_eq h)
  · obtain ⟨f, hf, h⟩ | ⟨-, h⟩ := lineTxShift_cases s
    · exact .inr (.inr (.inr (.inl ⟨rfl, f, hf, h⟩)))
    · exact .inl (.of_eq h)
  · obtain ⟨-, -, h⟩ | h := lineRxDeliver_cases e s
    · exact .inr (.inr (.inr (.inr (.inl ⟨_, h⟩))))
    · exact .inl (.of_eq h)
  · obtain ⟨he, hd, h⟩ | h := lineRxOverrun_cases s
    · exact .inr (.inr (.inr (.inr (.inr ⟨rfl, he, hd, h⟩))))
    · exact .inl (.of_eq h)

/-! ### The fields over every move -/

theorem perform_txTrace (hn : perform m s = .next t) (hm : ∀ u, m ≠ .reset u) :
    t.txTrace = s.txTrace ∨ (m = .txShift ∧ s.txShift ≠ none) := by
  obtain h | ⟨-, i, -, hx⟩ | ⟨f, b, rfl⟩ | ⟨rfl, f, hf, rfl⟩ | ⟨es, rfl⟩ |
    ⟨-, -, -, rfl⟩ := perform_writes hn hm
  · exact .inl h.txTrace
  · exact .inl (exec_lineTx_frame hx).1
  · exact .inl rfl
  · exact .inr ⟨rfl, by simp [hf]⟩
  · exact .inl rfl
  · exact .inl rfl

theorem perform_txc (hn : perform m s = .next t) (hm : ∀ u, m ≠ .reset u) :
    t.txc = s.txc ∨ (m = .txShift ∧ s.txShift ≠ none ∧ s.txBuf = none) := by
  obtain h | ⟨-, i, -, hx⟩ | ⟨f, b, rfl⟩ | ⟨rfl, f, hf, rfl⟩ | ⟨es, rfl⟩ |
    ⟨-, -, -, rfl⟩ := perform_writes hn hm
  · exact .inl h.txc
  · exact .inl (exec_lineTx_frame hx).2.1
  · exact .inl rfl
  · cases hb : s.txBuf with
    | none => exact .inr ⟨rfl, by simp [hf], rfl⟩
    | some b => exact .inl (by simp)
  · exact .inl rfl
  · exact .inl rfl

theorem perform_dor (hn : perform m s = .next t) (hm : ∀ u, m ≠ .reset u) :
    t.dor = s.dor ∨ (m = .rxOverrun ∧ s.rxen = true ∧ s.rxFifo.length = Config.rxDepth) ∨
      (m = .sequencer ∧ (∃ i, s.seq = .busy i ∧ i.receives = true) ∧ s.rxFifo ≠ []) := by
  obtain h | ⟨rfl, i, hi, hx⟩ | ⟨f, b, rfl⟩ | ⟨-, f, -, rfl⟩ | ⟨es, rfl⟩ |
    ⟨rfl, he, hd, -⟩ := perform_writes hn hm
  · exact .inl h.dor
  · by_cases hr : i.receives = true ∧ s.rxFifo ≠ []
    · exact .inr (.inr ⟨rfl, ⟨i, hi, hr.1⟩, hr.2⟩)
    · exact .inl (exec_dor_of_no_read hr hx)
  · exact .inl rfl
  · exact .inl rfl
  · exact .inl rfl
  · exact .inr (.inl ⟨rfl, he, hd⟩)

theorem perform_controls (hn : perform m s = .next t) (hm : ∀ u, m ≠ .reset u) :
    t.controls = s.controls ∨ (m = .sequencer ∧ t.seq = .idle ∧
      ∃ i, s.seq = .busy i ∧ exec i s = .next t ∧ WritesControls i s.controls t.controls) := by
  obtain h | ⟨rfl, i, hi, hx⟩ | ⟨f, b, rfl⟩ | ⟨-, f, -, rfl⟩ | ⟨es, rfl⟩ |
    ⟨-, -, -, rfl⟩ := perform_writes hn hm
  · exact .inl h.controls
  · obtain h | ⟨hidle, hw⟩ := exec_controls hx
    · exact .inl h
    · exact .inr ⟨rfl, hidle, i, hi, hx, hw⟩
  · exact .inl rfl
  · exact .inl rfl
  · exact .inl rfl
  · exact .inl rfl

/-! ### The statements -/

/-- The sequencer's move with a command in flight is its execution. -/
theorem exec_of_perform_sequencer (hs : s.seq = .busy i) (hn : perform .sequencer s = .next t) :
    exec i s = .next t := by
  obtain ⟨j, hj, -, hx⟩ | ⟨hb, -⟩ := sequencerStep_next hn
  · cases hs.symm.trans hj
    exact hx
  · exact absurd hs (hb i)

/-- Settles O57. -/
theorem traceOnlyGrows : Obligations.TraceOnlyGrows := by
  intro m s t hn
  refine ⟨?_, fun hc hm => ?_, ?_⟩
  · rintro f rfl hf
    cases hn
    simp [lineTxShift, hf]
  · obtain h | ⟨rfl, hf⟩ := perform_txTrace hn hm
    · exact h
    · exact absurd hc (by simp [hf])
  · rintro u rfl
    cases hn
    rfl

/-- Settles O59. -/
theorem txcIsSetByTheLastFrameAndStays : Obligations.TxcIsSetByTheLastFrameAndStays := by
  intro m s t hn
  refine ⟨?_, fun hc hm => ?_, ?_⟩
  · rintro rfl hf hb
    obtain ⟨f, hf⟩ := Option.ne_none_iff_exists'.1 hf
    cases hn
    simp [lineTxShift, hf, hb]
  · obtain h | ⟨rfl, hf, hb⟩ := perform_txc hn hm
    · exact h
    · exact absurd hc (by simp [hf, hb])
  · rintro u rfl
    cases hn
    rfl

/-- Settles O60. -/
theorem dorIsSetByOverrunAndClearedByARead : Obligations.DorIsSetByOverrunAndClearedByARead := by
  intro m s t hn
  refine ⟨?_, ?_, fun ho hr hm => ?_, ?_⟩
  · rintro rfl he hd
    cases hn
    simp [lineRxOverrun, he, hd]
  · rintro i rfl hs hi hf
    exact exec_dor_of_read hi hf (exec_of_perform_sequencer hs hn)
  · obtain h | h | h := perform_dor hn hm
    · exact h
    · exact absurd h ho
    · exact absurd h hr
  · rintro u rfl
    cases hn
    rfl

/-- Settles O58: unless an execution completes, the control fields stay as they are. -/
theorem controlFieldsHaveTheirWriters : Obligations.ControlFieldsHaveTheirWriters := by
  intro m s t hn hm
  obtain h | ⟨rfl, hidle, i, hi, hx, hw⟩ := perform_controls hn hm
  · have hfields := h
    simp only [State.controls, Controls.mk.injEq] at hfields
    simp [hfields, h]
  · refine ⟨hw.mpcm, fun hinit => ?_, fun htx9 => hw.txb8 ?_, fun _ => ⟨rfl, hidle, i, hi, hx⟩⟩
    · have hi' : ∀ cfg, i ≠ .uinit cfg := by rintro cfg rfl; exact hinit cfg ⟨rfl, hi⟩
      have hfields := hw.others hi'
      simp only [State.controls, Controls.mk.injEq] at hfields
      simp only [hfields, true_and]
      intro hdis
      exact hw.enables hi' (by rintro rfl; exact hdis hi)
    · rintro w rfl
      exact htx9 w ⟨rfl, hi⟩

end Sys2Proof.Machine
end

section
/-! The two data buffers (20_memory.md R76, R77): the moves that can change the transmit buffer or the receive
buffer, and what an execution does to each. -/

namespace Sys2Proof.Machine

variable {s t : State} {i : Instr} {m : Move}

theorem HostSideOnly.txBuf (h : HostSideOnly s t) : t.txBuf = s.txBuf := by rw [h]

theorem HostSideOnly.rxFifo (h : HostSideOnly s t) : t.rxFifo = s.rxFifo := by rw [h]

/-! ### Executions -/

/-- A command finds a full transmit buffer and leaves it: the transmit commands hold (41_transmit.md R170). -/
theorem exec_txBuf_of_full (hs : s.txBuf ≠ none) (hn : exec i s = .next t) : t.txBuf = s.txBuf := by
  obtain ⟨cfg, -, ⟨-, rfl⟩ | ⟨-, rfl⟩⟩ | ⟨-, rfl⟩ | ⟨-, -, rfl⟩ | ⟨d, -, hb, -⟩ | ⟨w, b, -, hb, -, -⟩ |
    ⟨-, -, rfl⟩ | ⟨h, rest, r, -, -, -, rfl⟩ | ⟨x, -, rfl⟩ := exec_next hn
  · rfl
  · simp
  · simp
  · rfl
  · exact absurd hb hs
  · exact absurd hb hs
  · rfl
  · simp
  · rfl

/-- INIT and DISABLE leave the receive buffer, or flush it as RXEN falls (40_configuration.md R148,
43_disable.md R206). -/
theorem exec_rxFifo_of_configures (hi : (∃ cfg, i = .uinit cfg) ∨ i = .udis) (hn : exec i s = .next t) :
    t.rxFifo = s.rxFifo ∨
      (s.rxen = true ∧ t.rxen = false ∧ Config.rxFlushOnDisable = true ∧ t.rxFifo = []) := by
  obtain ⟨cfg, rfl⟩ | rfl := hi
  · by_cases hb : cfg.baud = 0
    · rw [exec_uinit, initWith_zero hb] at hn
      cases hn
      exact .inl rfl
    · rw [exec_uinit, initWith_pos hb] at hn
      cases hn
      simpa using flushIfDisabled_rxFifo_cases _ s.rxen (initFields Config.fClk cfg s)
  · rw [exec_udis] at hn
    cases hn
    simpa using flushIfDisabled_rxFifo_cases _ s.rxen (s.setDuplex (false, false))

/-- A receive command with a frame waiting removes the head (42_receive.md R185, R187). -/
theorem exec_rxFifo_of_read (hi : i.receives = true) (hs : s.rxFifo ≠ []) (hn : exec i s = .next t) :
    ∃ h, s.rxFifo = h :: t.rxFifo := by
  obtain ⟨h, rest, hs⟩ := List.exists_cons_of_ne_nil hs
  obtain ⟨r, rfl⟩ := exec_receives_cons hi hs hn
  exact ⟨h, by simpa using hs⟩

/-- An execution that neither reads a frame nor configures leaves the receive buffer. -/
theorem exec_rxFifo_of_no_read (hr : ¬ (i.receives = true ∧ s.rxFifo ≠ []))
    (hc : ¬ ((∃ cfg, i = .uinit cfg) ∨ i = .udis)) (hn : exec i s = .next t) : t.rxFifo = s.rxFifo := by
  obtain ⟨cfg, hi, -⟩ | ⟨hi, -⟩ | ⟨-, -, rfl⟩ | ⟨d, -, -, rfl⟩ | ⟨w, b, -, -, -, rfl⟩ |
    ⟨-, -, rfl⟩ | ⟨h, rest, r, hi, hs, -, -⟩ | ⟨x, -, rfl⟩ := exec_next hn
  · exact absurd (.inl ⟨cfg, hi⟩) hc
  · exact absurd (.inr hi) hc
  · rfl
  · rfl
  · rfl
  · rfl
  · exact absurd ⟨hi, by simp [hs]⟩ hr
  · rfl

/-! ### Every move -/

/-- A move leaves both buffers and executes nothing, or is an execution, an enabled LINE_TX_LOAD, an enabled
LINE_RX_DELIVER or reset. -/
theorem perform_buffers (hn : perform m s = .next t) :
    (t.txBuf = s.txBuf ∧ t.rxFifo = s.rxFifo ∧ ∀ i, m = .sequencer → s.seq ≠ .busy i) ∨
    (m = .sequencer ∧ ∃ i, s.seq = .busy i ∧ exec i s = .next t) ∨
    (m = .txLoad ∧ ∃ b8 d, s.txBuf = some (b8, d) ∧
      t = (s.setTxShift (some (frameOf b8 d s))).setTxBuf none) ∨
    (∃ e, m = .rxDeliver e ∧ s.rxen = true ∧ t = s.setRxFifo (s.rxFifo ++ [e])) ∨
    ∃ u, m = .reset u ∧ t = resetInput u s := by
  have hostSide (hm : m ≠ .sequencer) (h : HostSideOnly s t) :
      t.txBuf = s.txBuf ∧ t.rxFifo = s.rxFifo ∧ ∀ i, m = .sequencer → s.seq ≠ .busy i :=
    ⟨h.txBuf, h.rxFifo, fun _ hm' => absurd hm' hm⟩
  obtain ⟨w, rfl, rfl⟩ | ⟨text, rfl, h⟩ | ⟨rfl, rfl⟩ | ⟨rfl, rfl⟩ | ⟨rfl, rfl⟩ | ⟨u, rfl, rfl⟩ | ⟨rfl, h⟩ |
    ⟨rfl, rfl⟩ | ⟨rfl, rfl⟩ | ⟨e, rfl, rfl⟩ | ⟨rfl, rfl⟩ := perform_next hn
  · exact .inl (hostSide nofun (hostIssue_hostSideOnly w s))
  · exact .inl (hostSide nofun (hostIssueText_hostSideOnly h))
  · exact .inl (hostSide nofun (hostIssueNext_hostSideOnly s))
  · exact .inl (hostSide nofun (hostCollect_hostSideOnly s))
  · exact .inl ⟨rfl, rfl, nofun⟩
  · exact .inr (.inr (.inr (.inr ⟨u, rfl, rfl⟩)))
  · obtain ⟨i, hi, -, hx⟩ | ⟨hi, rfl⟩ := sequencerStep_next h
    · exact .inr (.inl ⟨rfl, i, hi, hx⟩)
    · exact .inl ⟨rfl, rfl, fun i _ => hi i⟩
  · obtain ⟨b8, d, hb, -, h⟩ | ⟨-, h⟩ := lineTxLoad_cases s <;> rw [h]
    · exact .inr (.inr (.inl ⟨rfl, b8, d, hb, rfl⟩))
    · exact .inl ⟨rfl, rfl, nofun⟩
  · obtain ⟨f, -, h⟩ | ⟨-, h⟩ := lineTxShift_cases s <;> rw [h] <;> exact .inl ⟨rfl, rfl, nofun⟩
  · obtain ⟨he, -, h⟩ | h := lineRxDeliver_cases e s <;> rw [h]
    · exact .inr (.inr (.inr (.inl ⟨e, rfl, he, rfl⟩)))
    · exact .inl ⟨rfl, rfl, nofun⟩
  · obtain ⟨-, -, h⟩ | h := lineRxOverrun_cases s <;> rw [h] <;> exact .inl ⟨rfl, rfl, nofun⟩

/-! ### The statements -/

/-- Settles O29: of the moves that can touch the transmit buffer, an execution leaves a full one, and the load
frames the nine bits it holds. -/
theorem bufferedByteKeepsItsNinthBit : Obligations.BufferedByteKeepsItsNinthBit := by
  intro m s t b8 d hb hn hm
  obtain ⟨h, -⟩ | ⟨-, i, -, hx⟩ | ⟨rfl, b8', d', hb', rfl⟩ | ⟨e, -, -, rfl⟩ | ⟨u, rfl, -⟩ :=
    perform_buffers hn
  · exact .inl (h.trans hb)
  · exact .inl ((exec_txBuf_of_full (by simp [hb]) hx).trans hb)
  · cases hb.symm.trans hb'
    exact .inr ⟨rfl, rfl, _, rfl, rfl⟩
  · exact .inl hb
  · exact absurd rfl (hm u)

/-- Settles O39: an execution is a read of a waiting frame, an INIT or a DISABLE, or leaves the buffer. -/
theorem receiveBufferChangesOneFrameAtATime : Obligations.ReceiveBufferChangesOneFrameAtATime := by
  intro m s t hn
  obtain ⟨-, h, hidle⟩ | ⟨rfl, i, hi, hx⟩ | ⟨rfl, b8, d, -, rfl⟩ | ⟨e, rfl, he, rfl⟩ | ⟨u, rfl, rfl⟩ :=
    perform_buffers hn
  · exact .inl ⟨h, fun ⟨_, hm, i, hi, _⟩ => hidle i hm hi⟩
  · by_cases hr : i.receives = true ∧ s.rxFifo ≠ []
    · obtain ⟨h, hh⟩ := exec_rxFifo_of_read hr.1 hr.2 hx
      exact .inr (.inr (.inl ⟨i, h, rfl, hi, hr.1, hh⟩))
    · have unread : ¬ (s.rxFifo ≠ [] ∧ Move.sequencer = .sequencer ∧
          ∃ j, s.seq = .busy j ∧ j.receives = true) := by
        rintro ⟨hf, -, j, hj, hjr⟩
        cases hi.symm.trans hj
        exact hr ⟨hjr, hf⟩
      by_cases hc : (∃ cfg, i = .uinit cfg) ∨ i = .udis
      · obtain h | ⟨hon, hoff, hflush, h⟩ := exec_rxFifo_of_configures hc hx
        · exact .inl ⟨h, unread⟩
        · refine .inr (.inr (.inr (.inl ⟨rfl, ?_, hon, hoff, hflush, h⟩)))
          obtain ⟨cfg, rfl⟩ | rfl := hc
          · exact .inl ⟨cfg, hi⟩
          · exact .inr hi
      · exact .inl ⟨exec_rxFifo_of_no_read hr hc hx, unread⟩
  · exact .inl ⟨rfl, nofun⟩
  · exact .inr (.inl ⟨e, rfl, he, rfl⟩)
  · exact .inr (.inr (.inr (.inr ⟨u, rfl, rfl⟩)))

end Sys2Proof.Machine
end

section
/-! The decoder and the encoder as inverses of each other, and the three readings of a word (30_encoding.md
R91, R92, R106 to R110). -/

namespace Sys2Proof

variable {w : CmdWord} {i : Instr}

/-! ### Words read back from commands -/

theorem decode_utx9Word (v : BitVec 16) : decode (utx9Word v) = .legal (.utx9 v) := by
  have h := utx9Word_toNat v
  have hv := v.isLt
  have hfield : CmdWord.field (utx9Word v) 16 16 = v := by
    rw [← BitVec.toNat_inj, CmdWord.toNat_field]
    omega
  rw [decode_eq, if_neg (by omega), if_neg (by omega), if_pos (by omega), if_pos (by omega), hfield]

/-- Settles O1: each well-formed command has one word, which decodes to it. -/
theorem decodeReadsBackEveryCommand : Obligations.DecodeReadsBackEveryCommand := by
  intro i hi
  cases i with
  | uinit cfg => exact ⟨_, rfl, decode_initWord cfg⟩
  | utx d => exact ⟨_, rfl, decode_utxWord d⟩
  | utx9 v => exact ⟨_, rfl, decode_utx9Word v⟩
  | urx => exact ⟨_, rfl, rfl⟩
  | urx9 => exact ⟨_, rfl, rfl⟩
  | urxe => exact ⟨_, rfl, rfl⟩
  | udis => exact ⟨_, rfl, rfl⟩
  | utxs text => cases hi

/-! ### Commands read back from words -/

/-- Every bit of an INIT word but the opcode is in a field (30_encoding.md R93). -/
theorem initWord_configRecord (h : w.toNat % 16 = 1) : initWord (CmdWord.configRecord w) = w := by
  have hw := w.isLt
  -- Each field starts four bits above the one below it, and `omega` is given the quotients as that chain.
  have next (lo : Nat) : w.toNat / 2 ^ (lo + 4) = w.toNat / 2 ^ lo / 2 ^ 4 := by
    rw [Nat.div_div_eq_div_mul, ← Nat.pow_add]
  have h8 := next 4
  have h12 := next 8
  have h16 := next 12
  have h20 := next 16
  have h24 := next 20
  have h28 := next 24
  have h32 := next 28
  simp only [Nat.reduceAdd] at h8 h12 h16 h20 h24 h28 h32
  rw [← BitVec.toNat_inj, initWord_toNat]
  simp only [CmdWord.configRecord, CmdWord.toNat_field]
  rw [h32, h28, h24, h20, h16, h12, h8]
  omega

theorem utxWord_field (hlow : w.toNat % 2 ^ 8 = 2) (hhigh : w.toNat / 2 ^ 16 = 0) :
    utxWord (CmdWord.field w 8 8) = w := by
  rw [← BitVec.toNat_inj, utxWord_toNat, CmdWord.toNat_field]
  omega

theorem utx9Word_field (hlow : w.toNat % 2 ^ 16 = 3) (hhigh : w.toNat / 2 ^ 32 = 0) :
    utx9Word (CmdWord.field w 16 16) = w := by
  rw [← BitVec.toNat_inj, utx9Word_toNat, CmdWord.toNat_field]
  omega

/-! ### The readings of a word -/

/-- The opcode is one that the opcode map leaves free (30_encoding.md R108). -/
abbrev CmdWord.NoOpcode (w : CmdWord) : Prop := w.toNat % 16 = 0 ∨ 8 ≤ w.toNat % 16

/-- A bit is set that the word's command leaves reserved (30_encoding.md R107). -/
abbrev CmdWord.ReservedSet (w : CmdWord) : Prop :=
  (w.toNat % 16 = 2 ∧ (w.toNat / 2 ^ 4 % 2 ^ 4 ≠ 0 ∨ w.toNat / 2 ^ 16 ≠ 0)) ∨
  (w.toNat % 16 = 3 ∧ (w.toNat / 2 ^ 4 % 2 ^ 12 ≠ 0 ∨ w.toNat / 2 ^ 32 ≠ 0)) ∨
  ((4 ≤ w.toNat % 16 ∧ w.toNat % 16 ≤ 7) ∧ w.toNat / 2 ^ 4 ≠ 0)

/-- What a word can be read as, and when: the command whose word it is, or one of the two decode faults. -/
inductive Reading (w : CmdWord) : Decoded → Prop where
  | command {i : Instr} (hw : encode i = [w]) (ho : ¬ CmdWord.NoOpcode w)
      (hr : ¬ CmdWord.ReservedSet w) : Reading w (.legal i)
  | illegalOpcode (ho : CmdWord.NoOpcode w) (hr : ¬ CmdWord.ReservedSet w) :
      Reading w (.illegal .illegalOpcode)
  | reservedNonzero (ho : ¬ CmdWord.NoOpcode w) (hr : CmdWord.ReservedSet w) :
      Reading w (.illegal .reservedNonzero)

/-- A command without operands has one word, its opcode. -/
theorem reading_of_no_operand {n : Nat} (hn : 4 ≤ n ∧ n ≤ 7) (hop : w.toNat % 16 = n)
    (hi : encode i = [BitVec.ofNat 64 n]) :
    Reading w (if w.toNat = n then .legal i else .illegal .reservedNonzero) := by
  split
  next h =>
    refine .command (hi.trans ?_) (by omega) (by omega)
    rw [← h, BitVec.ofNat_toNat, BitVec.setWidth_eq]
  next h => exact .reservedNonzero (by omega) (by omega)

theorem decode_reading (w : CmdWord) : Reading w (decode w) := by
  rw [decode_eq]
  by_cases h1 : w.toNat % 16 = 1
  · rw [if_pos h1]
    exact .command (congrArg (fun v => [v]) (initWord_configRecord h1)) (by omega) (by omega)
  by_cases h2 : w.toNat % 16 = 2
  · rw [if_neg h1, if_pos h2]
    split
    next h => exact .command (congrArg (fun v => [v]) (utxWord_field h.1 h.2)) (by omega) (by omega)
    next h => exact .reservedNonzero (by omega) (by omega)
  by_cases h3 : w.toNat % 16 = 3
  · rw [if_neg h1, if_neg h2, if_pos h3]
    split
    next h => exact .command (congrArg (fun v => [v]) (utx9Word_field h.1 h.2)) (by omega) (by omega)
    next h => exact .reservedNonzero (by omega) (by omega)
  rw [if_neg h1, if_neg h2, if_neg h3]
  by_cases h4 : w.toNat % 16 = 4
  · rw [if_pos h4]
    exact reading_of_no_operand (by decide) h4 rfl
  by_cases h5 : w.toNat % 16 = 5
  · rw [if_neg h4, if_pos h5]
    exact reading_of_no_operand (by decide) h5 rfl
  by_cases h6 : w.toNat % 16 = 6
  · rw [if_neg h4, if_neg h5, if_pos h6]
    exact reading_of_no_operand (by decide) h6 rfl
  by_cases h7 : w.toNat % 16 = 7
  · rw [if_neg h4, if_neg h5, if_neg h6, if_pos h7]
    exact reading_of_no_operand (by decide) h7 rfl
  rw [if_neg h4, if_neg h5, if_neg h6, if_neg h7]
  exact .illegalOpcode (by omega) (by omega)

theorem encode_of_decode_legal (h : decode w = .legal i) : encode i = [w] := by
  cases h ▸ decode_reading w with
  | command hw ho hr => exact hw

theorem decode_illegalOpcode_iff (w : CmdWord) :
    decode w = .illegal .illegalOpcode ↔ CmdWord.NoOpcode w := by
  have h := decode_reading w
  generalize decode w = d at h ⊢
  cases h with
  | command hw ho hr => exact iff_of_false nofun ho
  | illegalOpcode ho hr => exact iff_of_true rfl ho
  | reservedNonzero ho hr => exact iff_of_false nofun ho

theorem decode_reservedNonzero_iff (w : CmdWord) :
    decode w = .illegal .reservedNonzero ↔ CmdWord.ReservedSet w := by
  have h := decode_reading w
  generalize decode w = d at h ⊢
  cases h with
  | command hw ho hr => exact iff_of_false nofun hr
  | illegalOpcode ho hr => exact iff_of_false nofun hr
  | reservedNonzero ho hr => exact iff_of_true rfl hr

/-! ### The statements -/

/-- Settles O2: a legal word is the one word of its command, so two words of one command are equal. -/
theorem everyLegalWordIsTheWordOfItsCommand : Obligations.EveryLegalWordIsTheWordOfItsCommand := by
  refine ⟨fun w i h => ⟨wf_of_decode_legal h, encode_of_decode_legal h⟩, fun v w i hv hw => ?_⟩
  have h : [v] = [w] := (encode_of_decode_legal hv).symm.trans (encode_of_decode_legal hw)
  exact List.singleton_inj.1 h

/-- Settles O3: a word with a command's opcode and clear reserved bits is the word of its fields. -/
theorem fieldsAreUnsignedBitRanges : Obligations.FieldsAreUnsignedBitRanges := by
  refine ⟨fun w h => ⟨CmdWord.configRecord w, ?_, ?_⟩, fun w hlow hhigh => ⟨CmdWord.field w 8 8, ?_, ?_⟩,
    fun w hlow hhigh => ⟨CmdWord.field w 16 16, ?_, ?_⟩, rfl, rfl, rfl, rfl⟩
  · rw [decode_eq, if_pos h]
  · have hbaud : w.toNat / 2 ^ 32 % 2 ^ 32 = w.toNat / 2 ^ 32 := Nat.mod_eq_of_lt (by omega)
    simp only [CmdWord.configRecord, CmdWord.toNat_field, hbaud, and_self]
  · simpa only [utxWord_field hlow hhigh] using decode_utxWord (CmdWord.field w 8 8)
  · exact CmdWord.toNat_field w 8 8
  · simpa only [utx9Word_field hlow hhigh] using decode_utx9Word (CmdWord.field w 16 16)
  · exact CmdWord.toNat_field w 16 16

/-- Settles O6: a command that the decoder answers has an opcode. -/
theorem everyWordHasOneOfThreeReadings : Obligations.EveryWordHasOneOfThreeReadings := by
  intro w
  generalize hd : decode w = d
  cases hd ▸ decode_reading w with
  | command hw ho hr => exact .inl ⟨_, wf_of_decode_legal hd, rfl⟩
  | illegalOpcode ho hr => exact .inr (.inl rfl)
  | reservedNonzero ho hr => exact .inr (.inr rfl)

/-- Settles O7. -/
theorem writtenOutWordsDecode : Obligations.WrittenOutWordsDecode :=
  ⟨rfl, rfl, rfl, rfl, rfl, rfl, rfl, rfl, rfl, rfl⟩

/-- Settles O8: UTXS stands for the UTX words of the bytes before the first NUL. -/
theorem utxsExpandsToTheBytesBeforeTheNul : Obligations.UtxsExpandsToTheBytesBeforeTheNul := by
  intro a b ha
  have readBack : (a.map utxWord).map decode = a.map fun d => Decoded.legal (.utx d) := by
    rw [List.map_map]
    exact List.map_congr_left fun d _ => decode_utxWord d
  obtain ⟨hnul, hwhole⟩ := Machine.textBytes_of_not_mem ha b
  rw [encode, encode, hnul, hwhole]
  exact ⟨readBack, readBack⟩

end Sys2Proof
end

section
/-! The operands of the transmit commands: the assembler's bounds on them (30_encoding.md R115) and the bits
of TX_WORD9's word that its meaning reads (41_transmit.md R173). -/

namespace Sys2Proof.Machine

theorem parseBelow_of_parseNumber {t : List Byte} {n : Nat} (h : parseNumber t = some n) (bound : Nat) :
    parseBelow bound t = if n < bound then some n else none := by
  rw [parseBelow, h, Option.bind_some]

theorem parseInstr_utx (t : List Byte) :
    parseInstr (ascii "utx") t = (parseBelow 0x100 t).map fun n => .utx (BitVec.ofNat 8 n) := by
  rw [parseInstr, if_neg (by decide), if_pos rfl]

theorem parseInstr_utx9 (t : List Byte) :
    parseInstr (ascii "utx9") t = (parseBelow 0x10000 t).map fun n => .utx9 (BitVec.ofNat 16 n) := by
  rw [parseInstr, if_neg (by decide), if_neg (by decide), if_pos rfl]

/-- Settles O9: the assembler takes a transmit operand below the bound of its width. -/
theorem assemblerBoundsTransmitOperands : Obligations.AssemblerBoundsTransmitOperands := by
  intro t n hn
  rw [parseInstr_utx, parseInstr_utx9, parseBelow_of_parseNumber hn, parseBelow_of_parseNumber hn]
  simp only [Nat.lt_succ_iff, apply_ite (Option.map _), Option.map_some, Option.map_none, and_self]

theorem ninthBit_eq (w : BitVec 16) : ninthBit w = decide (w.toNat / 256 % 2 = 1) := by
  rw [ninthBit, ← BitVec.testBit_toNat, Nat.testBit_eq_decide_div_mod_eq]

/-- Settles O28: TX_WORD9 reads its operand through the low byte and the ninth bit. -/
theorem txWord9IgnoresBitsAboveTheNinth : Obligations.TxWord9IgnoresBitsAboveTheNinth := by
  intro v w s h
  have hlow : lowByte v = lowByte w := by
    rw [lowByte_eq, lowByte_eq, show v.toNat % 256 = w.toNat % 256 by omega]
  have hninth : ninthBit v = ninthBit w := by
    rw [ninthBit_eq, ninthBit_eq, show v.toNat / 256 % 2 = w.toNat / 256 % 2 by omega]
  rw [exec_utx9, exec_utx9, hlow, hninth]

end Sys2Proof.Machine
end

section
/-! The command port (30_encoding.md R90, 70_reset_and_hazards.md R279): what the host's moves do at the open
port and at the closed one, how a word in flight is executed, and that a latched fault closes the port until
reset (60_exceptions.md R236). -/

namespace Sys2Proof.Machine

variable {s t : State} {i : Instr} {m : Move} {w : CmdWord} {c : FaultCode}

/-! ### The open port -/

theorem acceptWord_of_legal (h : decode w = .legal i) (s : State) :
    acceptWord w s = s.setSeq (.busy i) := by
  simp only [acceptWord, h]

theorem acceptWord_of_illegal (h : decode w = .illegal c) (s : State) :
    acceptWord w s = s.setSeq (.faulted c w) := by
  simp only [acceptWord, h, raiseFault_eq]

theorem hostIssue_of_open (hs : s.seq = .idle) (hq : s.hostQueue = []) (w : CmdWord) :
    hostIssue w s = acceptWord w s :=
  if_pos ⟨hs, hq⟩

theorem perform_issue_legal (hd : decode w = .legal i) (hs : s.seq = .idle) (hq : s.hostQueue = []) :
    perform (.issue w) s = .next { s with seq := .busy i } := by
  rw [perform, hostIssue_of_open hs hq, acceptWord_of_legal hd]
  rfl

theorem perform_issue_illegal (hd : decode w = .illegal c) (hs : s.seq = .idle) (hq : s.hostQueue = []) :
    perform (.issue w) s = .next { s with seq := .faulted c w } := by
  rw [perform, hostIssue_of_open hs hq, acceptWord_of_illegal hd]
  rfl

/-- Settles O4. -/
theorem illegalOpcodesRaiseTheirFault : Obligations.IllegalOpcodesRaiseTheirFault := by
  intro w
  refine ⟨decode_illegalOpcode_iff w, fun h s hs hq => ?_⟩
  exact perform_issue_illegal ((decode_illegalOpcode_iff w).2 h) hs hq

/-- Settles O5. -/
theorem reservedBitsRaiseTheirFault : Obligations.ReservedBitsRaiseTheirFault :=
  fun w => ⟨decode_reservedNonzero_iff w, fun h _ hs hq => perform_issue_illegal h hs hq⟩

/-! ### The closed port -/

theorem hostIssue_of_closed (h : s.seq ≠ .idle ∨ s.hostQueue ≠ []) (w : CmdWord) : hostIssue w s = s := by
  obtain ⟨hs, hq, -⟩ | ⟨-, h'⟩ := hostIssue_cases w s
  · simp [hs, hq] at h
  · exact h'

theorem hostIssueText_of_closed (h : s.seq ≠ .idle ∨ s.hostQueue ≠ []) (text : List Byte) :
    hostIssueText text s = .next s := by
  obtain ⟨hs, hq, -⟩ | ⟨-, h'⟩ := hostIssueText_cases text s
  · simp [hs, hq] at h
  · exact h'

theorem hostIssueNext_of_not_idle (h : s.seq ≠ .idle) : hostIssueNext s = s := by
  obtain ⟨w, rest, hs, -⟩ | ⟨-, h'⟩ := hostIssueNext_cases s
  · exact absurd hs h
  · exact h'

theorem wordsIssued_of_not_idle (h : s.seq ≠ .idle) (m : Move) : wordsIssued m s = [] := by
  cases m <;> simp [wordsIssued, h]

/-! ### A latched fault (60_exceptions.md R236, R239) -/

/-- Only reset leaves a latched fault: it closes the port, and the line agents keep to their side. -/
theorem perform_seq_of_faulted (hs : s.seq = .faulted c w) (hm : ∀ u, m ≠ .reset u)
    (hn : perform m s = .next t) : t.seq = .faulted c w := by
  have hidle : s.seq ≠ .idle := by simp [hs]
  obtain ⟨v, -, rfl⟩ | ⟨text, -, h⟩ | ⟨-, rfl⟩ | ⟨-, rfl⟩ | ⟨-, rfl⟩ | ⟨u, h, -⟩ | ⟨-, h⟩ | ⟨-, rfl⟩ |
    ⟨-, rfl⟩ | ⟨e, -, rfl⟩ | ⟨-, rfl⟩ := perform_next hn
  · rw [hostIssue_of_closed (.inl hidle), hs]
  · rw [hostIssueText_of_closed (.inl hidle)] at h
    cases h
    exact hs
  · rw [hostIssueNext_of_not_idle hidle, hs]
  · obtain ⟨-, h⟩ | ⟨r, -, h⟩ := hostCollect_cases s <;> rw [h] <;> exact hs
  · exact hs
  · exact absurd h (hm u)
  · obtain ⟨i, hi, -⟩ | ⟨-, rfl⟩ := sequencerStep_next h
    · cases hs.symm.trans hi
    · exact hs
  · obtain ⟨b8, d, -, -, h⟩ | ⟨-, h⟩ := lineTxLoad_cases s <;> rw [h] <;> exact hs
  · obtain ⟨f, -, h⟩ | ⟨-, h⟩ := lineTxShift_cases s <;> rw [h] <;> exact hs
  · obtain ⟨-, -, h⟩ | h := lineRxDeliver_cases e s <;> rw [h] <;> exact hs
  · obtain ⟨-, -, h⟩ | h := lineRxOverrun_cases s <;> rw [h] <;> exact hs

/-- A failed run without a reset stays failed and issues no word more. -/
theorem failed_run {moves : Nat → Move} {states : Nat → State} {n k : Nat} (hrun : IsRun moves states)
    (hf : (states n).failed) (hm : ∀ k u, n ≤ k → moves k ≠ .reset u) (hk : n ≤ k) :
    (states k).failed ∧ issuedBefore moves states k = issuedBefore moves states n := by
  induction k, hk using Nat.le_induction with
  | base => exact ⟨hf, rfl⟩
  | succ k hk ih =>
    obtain ⟨⟨c, w, hs⟩, hissued⟩ := ih
    refine ⟨⟨c, w, perform_seq_of_faulted hs (fun u => hm k u hk) (hrun k)⟩, ?_⟩
    rw [issuedBefore, wordsIssued_of_not_idle (by simp [hs]), List.append_nil, hissued]

/-- Settles O11: the host's moves at the closed port, and the runs a fault has closed it for. -/
theorem portAcceptsNothingUnlessIdle : Obligations.PortAcceptsNothingUnlessIdle := by
  refine ⟨fun s w text hs => ⟨?_, ?_, ?_⟩, fun s w text hq => ⟨?_, ?_⟩, ?_⟩
  · rw [perform, hostIssue_of_closed (.inl hs)]
  · exact hostIssueText_of_closed (.inl hs) text
  · rw [perform, hostIssueNext_of_not_idle hs]
  · rw [perform, hostIssue_of_closed (.inr hq)]
  · exact hostIssueText_of_closed (.inr hq) text
  · exact fun moves states n hrun hf hm k hk => failed_run hrun hf hm hk

/-! ### The command in flight -/

theorem perform_sequencer_busy (hi : i.wf = true) (hs : s.seq = .busy i) :
    perform .sequencer s = exec i s := by
  simp only [perform, sequencerStep, hs, hi, if_true]

theorem withFetchWord_of_legal (h : decode w = .legal i) (s : State) :
    s.withFetchWord 64 w.toNat = { s with seq := .busy i, script := .sequencer :: s.script } := by
  have hw : BitVec.ofNat 64 (w.toNat % 2 ^ 64) = w := by
    rw [Nat.mod_eq_of_lt w.isLt, BitVec.ofNat_toNat, BitVec.setWidth_eq]
  simp only [State.withFetchWord, hw, placeWord, h]

/-- Settles O10: a step under a script is its first move, and the sequencer's move is the execution. -/
theorem stepRunsTheDecodedInstruction : Obligations.StepRunsTheDecodedInstruction := by
  refine ⟨fun s w i rest hd hs hq hscript => ⟨?_, ?_⟩, fun s i rest hi hs hscript => ?_, fun s w i hd => ?_⟩
  · exact (step_of_script hscript).trans (perform_issue_legal hd hs hq)
  · exact (step_of_script rfl).trans (perform_sequencer_busy (wf_of_decode_legal hd) rfl)
  · exact (step_of_script hscript).trans (perform_sequencer_busy hi hs)
  · rw [withFetchWord_of_legal hd]
    exact (step_of_script rfl).trans (perform_sequencer_busy (wf_of_decode_legal hd) rfl)

end Sys2Proof.Machine
end

section
/-! UTXS (30_encoding.md R117, 41_transmit.md R176): it commits the host to the words of its expansion, and
each of those words, on the plainest schedule, puts one frame in the trace. -/

namespace Sys2Proof.Machine

variable {s t : State}

/-- Settles O30. -/
theorem utxsCommitsTheHostToItsWords : Obligations.UtxsCommitsTheHostToItsWords := by
  intro a b s ha
  obtain ⟨hnul, hwhole⟩ := textBytes_of_not_mem ha b
  rw [exec_utxs, exec_utxs, hnul, hwhole]
  exact ⟨rfl, rfl⟩

/-! ### The moves of one byte -/

theorem setSeq_self {q : Seq} (h : s.seq = q) : s.setSeq q = s := by
  rw [← h]
  rfl

/-- Taking up a text at the open port leaves it open and commits the host to the text's words. -/
theorem perform_issueText_open (hs : s.seq = .idle) (hq : s.hostQueue = []) (text : List Byte) :
    perform (.issueText text) s = .next (s.setHostQueue ((textBytes text).map utxWord)) := by
  obtain ⟨-, -, h⟩ | ⟨h, -⟩ := hostIssueText_cases text s
  · exact h.trans (congrArg _ (setSeq_self hs))
  · simp [hs, hq] at h

theorem perform_issueNext_utx {d : Byte} {queue : List CmdWord} (hs : s.seq = .idle)
    (hq : s.hostQueue = utxWord d :: queue) :
    perform .issueNext s = .next ((s.setHostQueue queue).setSeq (.busy (.utx d))) := by
  rw [perform, hostIssueNext, hs, hq]
  exact congrArg _ (acceptWord_of_legal (decode_utxWord d) _)

theorem perform_sequencer_utx {d : Byte} (hs : s.seq = .busy (.utx d)) (hb : s.txBuf = none) :
    perform .sequencer s = .next ((s.setTxBuf (some (s.txb8, d))).setSeq .idle) := by
  rw [perform_sequencer_busy rfl hs, exec_utx, holdUntilUdre_none hb, udrWrite_eq]

theorem perform_txLoad_enabled {b8 : Bit} {d : Byte} (hb : s.txBuf = some (b8, d))
    (hf : s.txShift = none) :
    perform .txLoad s = .next ((s.setTxShift (some (frameOf b8 d s))).setTxBuf none) := by
  rw [perform, lineTxLoad, hb, hf]

theorem perform_txShift_enabled {f : TxFrame} (hf : s.txShift = some f) :
    perform .txShift s =
      .next (((s.setTxTrace (s.txTrace ++ [f])).setTxShift none).setTxc (s.txc || s.txBuf.isNone)) := by
  rw [perform, lineTxShift, hf]

/-! ### An expansion on the plainest schedule -/

/-- The schedule that takes each of the bytes `a` from the host to the trace before the next one. -/
def byteMoves (a : List Byte) : List Move :=
  a.flatMap fun _ => [.issueNext, .sequencer, .txLoad, .txShift]

/-- The port is open and the transmitter idle, the host is committed to the words of `a`, and the moves of
those bytes come next, then `rest`. -/
structure Transmitting (a : List Byte) (rest : List Move) (s : State) : Prop where
  idle : s.seq = .idle
  queue : s.hostQueue = a.map utxWord
  buf : s.txBuf = none
  shift : s.txShift = none
  script : s.script = byteMoves a ++ rest

/-- `s` with the frames of the bytes `a` in its trace, and the host's queue and the script as given. -/
def State.withSent (s : State) (a : List Byte) (queue : List CmdWord) (script : List Move) : State :=
  { s with
    hostQueue := queue
    script := script
    txc := s.txc || !a.isEmpty
    txTrace := s.txTrace ++ a.map fun d => frameOf s.txb8 d s }

theorem withSent_nil (s : State) : s.withSent [] s.hostQueue s.script = s := by
  simp [State.withSent]

/-- Sending one byte and then others is sending them all: a frame depends on no field that sending writes. -/
theorem withSent_cons (s : State) (d : Byte) (a : List Byte) (q q' : List CmdWord) (r r' : List Move) :
    (s.withSent [d] q r).withSent a q' r' = s.withSent (d :: a) q' r' := by
  simp [State.withSent, frameOf]

/-- A run under a script goes on after the script's first move. -/
theorem run_script {m : Move} {rest : List Move} {n : Nat} (hscript : s.script = m :: rest)
    (hm : perform m { s with script := rest } = .next t) :
    Host.Core.run core (n + 1) s = Host.Core.run core n t :=
  run_next ((step_of_script hscript).trans hm)

/-- The four moves of a byte put its frame in the trace and leave the rest to be sent. -/
theorem run_byte {d : Byte} {a : List Byte} {rest : List Move} (h : Transmitting (d :: a) rest s)
    (n : Nat) :
    Host.Core.run core (n + 4) s =
      Host.Core.run core n (s.withSent [d] (a.map utxWord) (byteMoves a ++ rest)) := by
  obtain ⟨hidle, hqueue, hbuf, hshift, hscript⟩ := h
  calc Host.Core.run core (n + 4) s
    _ = Host.Core.run core (n + 3) { s with
          seq := .busy (.utx d), hostQueue := a.map utxWord,
          script := .sequencer :: .txLoad :: .txShift :: (byteMoves a ++ rest) } :=
        run_script hscript (perform_issueNext_utx hidle hqueue)
    _ = Host.Core.run core (n + 2) { s with
          seq := .idle, hostQueue := a.map utxWord, txBuf := some (s.txb8, d),
          script := .txLoad :: .txShift :: (byteMoves a ++ rest) } :=
        run_script rfl (perform_sequencer_utx rfl hbuf)
    _ = Host.Core.run core (n + 1) { s with
          seq := .idle, hostQueue := a.map utxWord, txBuf := none,
          txShift := some (frameOf s.txb8 d s), script := .txShift :: (byteMoves a ++ rest) } :=
        run_script rfl (perform_txLoad_enabled rfl hshift)
    _ = Host.Core.run core n { s with
          seq := .idle, hostQueue := a.map utxWord, txBuf := none, txShift := none,
          txTrace := s.txTrace ++ [frameOf s.txb8 d s], txc := s.txc || true,
          script := byteMoves a ++ rest } :=
        run_script rfl (perform_txShift_enabled rfl)
    _ = Host.Core.run core n (s.withSent [d] (a.map utxWord) (byteMoves a ++ rest)) := by
        rw [State.withSent, hidle, hbuf, hshift]
        rfl

theorem Transmitting.withSent {d : Byte} {a : List Byte} {rest : List Move}
    (h : Transmitting (d :: a) rest s) :
    Transmitting a rest (s.withSent [d] (a.map utxWord) (byteMoves a ++ rest)) :=
  ⟨h.idle, rfl, h.buf, h.shift, rfl⟩

theorem run_bytes {a : List Byte} {rest : List Move} (h : Transmitting a rest s) :
    Host.Core.run core (4 * a.length) s = .next (s.withSent a [] rest) := by
  induction a generalizing s with
  | nil =>
    obtain ⟨-, hqueue, -, -, hscript⟩ := h
    have hself := withSent_nil s
    rw [hqueue, hscript] at hself
    exact congrArg _ hself.symm
  | cons d a ih =>
    exact (run_byte h _).trans ((ih h.withSent).trans (congrArg _ (withSent_cons ..)))

/-- Settles O31: the text's words are queued, and then its bytes go out one by one. -/
theorem utxsTransmitsItsBytesInOrder : Obligations.UtxsTransmitsItsBytesInOrder := by
  intro a b s rest ha hidle hqueue hbuf hshift hscript
  have htaken := perform_issueText_open (s := { s with script := byteMoves a ++ rest }) hidle hqueue
    (a ++ 0 :: b)
  rw [(textBytes_of_not_mem ha b).1] at htaken
  refine ⟨s.withSent a s.hostQueue rest, ?_, rfl, fun hrest => ⟨?_, hidle, hbuf, hshift⟩⟩
  · rw [hqueue, Nat.add_comm]
    exact Eq.trans (run_script hscript htaken) (run_bytes ⟨hidle, rfl, hbuf, hshift, rfl⟩)
  · exact List.append_eq_nil_iff.2 ⟨hqueue, hrest⟩

end Sys2Proof.Machine
end

section
/-! The configuration command INIT (40_configuration.md): its divisor and field tables, what it leaves
alone, its fault and the worked example; and the two part writes of the baud register. -/

namespace Sys2Proof.Machine

variable {s : State}

/-! ### The two parts of the baud register (40_configuration.md R138, R139) -/

/-- A register whose part above the low byte comes from one value and whose low byte from another. -/
theorem highPart_or_lowByte_toNat (high low : BitVec Config.ubrrBits) :
    ((high &&& ~~~ 0xFF) ||| (low &&& 0xFF)).toNat = high.toNat / 256 * 256 + low.toNat % 256 := by
  have mask : ∀ i < 12, (0xFF : BitVec Config.ubrrBits).getLsbD i = decide (i < 8) := by decide
  have parts : (high &&& ~~~ 0xFF) ||| (low &&& 0xFF) =
      high.extractLsb' 8 4 ++ low.extractLsb' 0 8 := by
    apply BitVec.eq_of_getLsbD_eq
    intro i hi
    simp only [BitVec.getLsbD_or, BitVec.getLsbD_and, BitVec.getLsbD_not, BitVec.getLsbD_append,
      BitVec.getLsbD_extractLsb', mask i hi, hi]
    by_cases h : i < 8
    · simp [h]
    · simp [h, show i - 8 < 4 by omega, show 8 + (i - 8) = i by omega]
  have hhigh : high.toNat < 4096 := high.isLt
  rw [parts, toNat_append_eq, BitVec.extractLsb'_toNat, BitVec.extractLsb'_toNat,
    Nat.shiftRight_eq_div_pow, Nat.shiftRight_eq_div_pow]
  omega

/-- Settles O24: each write puts its own part of the value beside the other part of the register. -/
theorem baudRegisterPartsAreIndependent : Obligations.BaudRegisterPartsAreIndependent := by
  intro s v
  have hhigh := highPart_or_lowByte_toNat v s.ubrr
  have hlow := highPart_or_lowByte_toNat s.ubrr v
  rw [State.setUbrrHigh_ubrr, State.setUbrrLow_ubrr, hhigh, hlow]
  refine ⟨?_, ?_, ?_, ?_, rfl⟩ <;> omega

/-! ### The divisor (40_configuration.md R131 to R133) -/

theorem ubrrValue_of_fits {div : Int} (h : 0 ≤ div ∧ div < 4096) :
    ((ubrrValue div).toNat : Int) = div := by
  have hfits : 0 ≤ div ∧ div < 2 ^ Config.ubrrBits := h
  have hwidth : 2 ^ Config.ubrrBits = 4096 := rfl
  rw [ubrrValue, if_pos hfits, BitVec.toNat_ofNat, hwidth]
  omega

theorem ubrrValue_of_overflows {div : Int} (h : div < 0 ∨ 4096 ≤ div) :
    ubrrValue div = Config.ubrrOverflow div :=
  if_neg fun (h' : 0 ≤ div ∧ div < 4096) => by omega

/-- Settles O16: the two part writes leave the value of the divisor. -/
theorem initWritesTheBaudDivisor : Obligations.InitWritesTheBaudDivisor := by
  refine ⟨fun clock flush cfg s hb => ?_, exec_uinit⟩
  refine ⟨_, baudDivisor clock (oversampling cfg.mode) cfg.baud.toNat, initWith_pos hb, rfl,
    fun h => ?_, fun h => ?_⟩ <;>
    rw [State.setSeq_ubrr, flushIfDisabled_ubrr, initFields_ubrr]
  · exact ubrrValue_of_fits h
  · exact ubrrValue_of_overflows h

/-! ### The field tables (40_configuration.md R141 to R147) -/

theorem exec_uinit_pos {cfg : ConfigRecord} (hb : cfg.baud ≠ 0) (s : State) :
    exec (.uinit cfg) s = .next ((flushIfDisabled Config.rxFlushOnDisable s.rxen
      (initFields Config.fClk cfg s)).setSeq .idle) :=
  initWith_pos hb

/-- Writing back what the receive buffer holds empties nothing, so it draws nothing. -/
theorem replaceRx_self (s : State) : s.replaceRx s.rxFifo = s := by
  unfold State.replaceRx
  split
  next hcons hnil => cases hnil.symm.trans hcons
  next => rfl

/-- A flush that leaves the receive buffer as it was changes nothing. -/
theorem flushIfDisabled_eq_self_of_rxFifo {b : Bool} {e : Bit}
    (h : (flushIfDisabled b e s).rxFifo = s.rxFifo) : flushIfDisabled b e s = s := by
  unfold flushIfDisabled at h ⊢
  split at h
  next hc =>
    have hnil : [] = s.rxFifo := (replaceRx_rxFifo s []).symm.trans h
    rw [if_pos hc, hnil, replaceRx_self]
  next hc => rw [if_neg hc]

/-- Settles O15: the owned fields read off their tables, and the flags off the buffer they describe. -/
theorem initWritesTheFieldTables : Obligations.InitWritesTheFieldTables := by
  intro cfg s hb
  refine ⟨_, exec_uinit_pos hb s, rfl, by simp, by simp [modeBits_eq], by simp [modeBits_eq],
    by simp, by simp, by simp, by simp [State.udre], fun h => ?_, by simp [duplexBits_eq],
    by simp [duplexBits_eq], by simp [sizeBits_eq], by simp [sizeBits_eq], by simp [parityBits_eq],
    by simp [stopBit_eq], by simp [polBit_eq], by simp [irqBits_eq], by simp [irqBits_eq],
    by simp [irqBits_eq]⟩
  have unflushed : flushIfDisabled Config.rxFlushOnDisable s.rxen (initFields Config.fClk cfg s) =
      initFields Config.fClk cfg s :=
    flushIfDisabled_eq_self_of_rxFifo h
  rw [unflushed]
  simp [State.rxc, State.fe, State.pe]

/-! ### What INIT leaves alone (40_configuration.md R134, R148) -/

/-- Settles O17: the field writes keep to the owned fields, and the flush to the receive buffer. -/
theorem initPreservesWhatItDoesNotOwn : Obligations.InitPreservesWhatItDoesNotOwn := by
  intro cfg s hb
  refine ⟨_, exec_uinit_pos hb s, ?_⟩
  rw [flushIfDisabled_frame, flushIfDisabled_rxFifo]
  split <;> simp_all [State.setSeq]

/-- Settles O18: the word INIT was decoded from is the one its fault records. -/
theorem initWithBaudZeroFaults : Obligations.InitWithBaudZeroFaults := by
  intro cfg s w hb hd
  have hw : initWord cfg = w := List.singleton_inj.1 (encode_of_decode_legal hd)
  rw [exec_uinit, initWith_zero hb, hw]
  rfl

/-! ### The worked example (40_configuration.md R153, R156) -/

/-- The scenario's divisor is `16000000 / 16 / 9600 - 1`. -/
theorem initUbrr_scenario : initUbrr 16000000 ⟨9600, 1, 0, 3, 0, 0, 1, 0⟩ = 103 := by
  decide

/-- Settles O22: after reset RXEN is 0, so nothing is flushed and the views read the fields just written. -/
theorem scenarioAtSixteenMegahertz : Obligations.ScenarioAtSixteenMegahertz := by
  rintro s flush ⟨u, hu⟩
  have unflushed (s' : State) : flushIfDisabled flush (resetInput u s).rxen s' = s' :=
    flushIfDisabled_eq_self rfl
  rw [← hu]
  refine ⟨_, initWith_pos (by decide), ?_⟩
  rw [unflushed, State.ubrrh, State.ubrrl, State.setSeq_ubrr, initFields_ubrr, initUbrr_scenario,
    State.setSeq_ursel, initFields_ursel]
  refine ⟨rfl, ?_, ?_, ?_, rfl, rfl, rfl⟩
  · simp [State.ucsra, State.rxc, State.udre, State.fe, State.pe, modeBits_eq, resetInput,
      State.resetWith]
  · simp [State.ucsrb, State.rxb8, irqBits_eq, duplexBits_eq, sizeBits_eq, resetInput,
      State.resetWith]
  · simp [State.ucsrc, modeBits_eq, parityBits_eq, stopBit_eq, sizeBits_eq, polBit_eq]

/-- Settles O23: the size table, code by code. -/
theorem sizeTriplesAreDistinct : Obligations.SizeTriplesAreDistinct :=
  ⟨by decide, by decide⟩

end Sys2Proof.Machine
end

section
/-! The transmit commands (41_transmit.md): what TX_BYTE and TX_WORD9 hand over, the hold while UDRE = 0, and
the stream of nine-bit values handed to the hardware, which only a completing transmit command extends. -/

namespace Sys2Proof.Machine

variable {s t : State} {i : Instr} {m : Move}

/-! ### The stream of values handed over (41_transmit.md R172) -/

/-- The stream is read off the trace, the shift register and the buffer alone. -/
theorem handedOver_congr (htrace : t.txTrace = s.txTrace) (hshift : t.txShift = s.txShift)
    (hbuf : t.txBuf = s.txBuf) : t.handedOver = s.handedOver := by
  rw [State.handedOver, State.handedOver, htrace, hshift, hbuf]

/-- A byte put in the empty buffer becomes the last value of the stream. -/
theorem handedOver_of_fill {b8 : Bit} {d : Byte} (htrace : t.txTrace = s.txTrace)
    (hshift : t.txShift = s.txShift) (hempty : s.txBuf = none) (hfull : t.txBuf = some (b8, d)) :
    t.handedOver = s.handedOver ++ [nineBits b8 d] := by
  simp [State.handedOver, htrace, hshift, hempty, hfull]

theorem HostSideOnly.handedOver (h : HostSideOnly s t) : t.handedOver = s.handedOver := by rw [h]; rfl

/-- A load moves the stream's last value from the buffer to the shift register (44_line_side.md R217). -/
theorem lineTxLoad_handedOver (s : State) : (lineTxLoad s).handedOver = s.handedOver := by
  obtain ⟨b8, d, hb, hf, h⟩ | ⟨-, h⟩ := lineTxLoad_cases s
  · simp [h, State.handedOver, hb, hf, frameOf]
  · rw [h]

/-- A shift moves the value in the shift register to the end of the trace (44_line_side.md R218). -/
theorem lineTxShift_handedOver (s : State) : (lineTxShift s).handedOver = s.handedOver := by
  obtain ⟨f, hf, h⟩ | ⟨-, h⟩ := lineTxShift_cases s
  · simp [h, State.handedOver, hf]
  · rw [h]

theorem lineRxDeliver_handedOver (e : RxEntry) (s : State) :
    (lineRxDeliver e s).handedOver = s.handedOver := by
  obtain ⟨-, -, h⟩ | h := lineRxDeliver_cases e s <;> simp [h, State.handedOver]

theorem lineRxOverrun_handedOver (s : State) : (lineRxOverrun s).handedOver = s.handedOver := by
  obtain ⟨-, -, h⟩ | h := lineRxOverrun_cases s <;> simp [h, State.handedOver]

/-- An execution leaves the transmit buffer, or is a transmit command that fills the empty buffer and
completes: with TXB8 beside TX_BYTE's byte, with the new TXB8 beside TX_WORD9's low byte. -/
theorem exec_txBuf (hn : exec i s = .next t) :
    t.txBuf = s.txBuf ∨ (s.txBuf = none ∧ t.seq = .idle ∧
      ((∃ d, i = .utx d ∧ t.txBuf = some (s.txb8, d)) ∨
        ∃ w, i = .utx9 w ∧ t.txBuf = some (t.txb8, lowByte w))) := by
  obtain ⟨cfg, -, ⟨-, rfl⟩ | ⟨-, rfl⟩⟩ | ⟨-, rfl⟩ | ⟨-, -, rfl⟩ | ⟨d, rfl, hb, rfl⟩ |
    ⟨w, b, rfl, hb, -, rfl⟩ | ⟨-, -, rfl⟩ | ⟨h, rest, r, -, -, -, rfl⟩ | ⟨x, -, rfl⟩ := exec_next hn
  · exact .inl rfl
  · exact .inl (by simp)
  · exact .inl (by simp)
  · exact .inl rfl
  · exact .inr ⟨hb, rfl, .inl ⟨d, rfl, rfl⟩⟩
  · exact .inr ⟨hb, rfl, .inr ⟨w, rfl, rfl⟩⟩
  · exact .inl rfl
  · exact .inl (by simp)
  · exact .inl rfl

/-- An execution appends the one value of a transmit command that completes, or leaves the stream. -/
theorem exec_handedOver (hn : exec i s = .next t) :
    t.handedOver = s.handedOver ∨ (s.txBuf = none ∧ t.seq = .idle ∧
      ((∃ d, i = .utx d ∧ t.handedOver = s.handedOver ++ [nineBits s.txb8 d]) ∨
        ∃ w, i = .utx9 w ∧ t.handedOver = s.handedOver ++ [nineBits t.txb8 (lowByte w)])) := by
  obtain ⟨htrace, -, hshift⟩ := exec_lineTx_frame hn
  obtain h | ⟨hb, hidle, ⟨d, hi, h⟩ | ⟨w, hi, h⟩⟩ := exec_txBuf hn
  · exact .inl (handedOver_congr htrace hshift h)
  · exact .inr ⟨hb, hidle, .inl ⟨d, hi, handedOver_of_fill htrace hshift hb h⟩⟩
  · exact .inr ⟨hb, hidle, .inr ⟨w, hi, handedOver_of_fill htrace hshift hb h⟩⟩

/-- Settles O56: Line-TX moves values along the stream, and of the other moves only an execution extends it
and only reset empties it. -/
theorem handedOverStreamGrowsInOrder : Obligations.HandedOverStreamGrowsInOrder := by
  intro m s t hn
  obtain ⟨w, -, rfl⟩ | ⟨text, -, h⟩ | ⟨-, rfl⟩ | ⟨-, rfl⟩ | ⟨-, rfl⟩ | ⟨u, hm, rfl⟩ | ⟨rfl, h⟩ | ⟨-, rfl⟩ |
    ⟨-, rfl⟩ | ⟨e, -, rfl⟩ | ⟨-, rfl⟩ := perform_next hn
  · exact .inl (hostIssue_hostSideOnly w s).handedOver
  · exact .inl (hostIssueText_hostSideOnly h).handedOver
  · exact .inl (hostIssueNext_hostSideOnly s).handedOver
  · exact .inl (hostCollect_hostSideOnly s).handedOver
  · exact .inl rfl
  · exact .inr (.inr ⟨u, hm, rfl⟩)
  · obtain ⟨i, hi, -, hx⟩ | ⟨-, rfl⟩ := sequencerStep_next h
    · obtain h | ⟨hb, hidle, ⟨d, rfl, h⟩ | ⟨w, rfl, h⟩⟩ := exec_handedOver hx
      · exact .inl h
      · exact .inr (.inl ⟨rfl, hb, hidle, .inl ⟨d, hi, h⟩⟩)
      · exact .inr (.inl ⟨rfl, hb, hidle, .inr ⟨w, hi, lowByte_eq w ▸ h⟩⟩)
    · exact .inl rfl
  · exact .inl (lineTxLoad_handedOver s)
  · exact .inl (lineTxShift_handedOver s)
  · exact .inl (lineRxDeliver_handedOver e s)
  · exact .inl (lineRxOverrun_handedOver s)

/-! ### Each transmit command (41_transmit.md R171, R174) -/

/-- A transmit command finds UDRE = 0 and holds, whichever one it is (41_transmit.md R170). -/
theorem exec_transmits_full (hi : i.transmits = true) (hs : s.txBuf ≠ none) : exec i s = .next s := by
  cases i with
  | utx d => exact (exec_utx d s).trans (holdUntilUdre_some hs)
  | utx9 w => exact (exec_utx9 w s).trans (holdUntilUdre_some hs)
  | uinit _ | urx | urx9 | urxe | udis | utxs _ => cases hi

/-- Settles O25. -/
theorem txByteHandsOverItsByte : Obligations.TxByteHandsOverItsByte :=
  fun d s => ⟨fun hs => (exec_utx d s).trans (holdUntilUdre_none hs), exec_transmits_full rfl⟩

/-- What TX_WORD9 writes to TXB8, as one condition on the reading (00_scope.md R13). -/
theorem nextTxb8_eq (update : Tx9Update) (old b8 : Bit) :
    nextTxb8 update old b8 = if update = .assign then b8 else old || b8 := by
  cases update <;> rfl

/-- TX_WORD9 into the empty buffer, under either reading: the byte and the bit are those of the word. -/
theorem txWord9_of_empty (hs : s.txBuf = none) (update : Tx9Update) (w : BitVec 16) :
    ∃ b8 : Bit, txWord9 update w s =
        .next { s with txb8 := b8, txBuf := some (b8, BitVec.ofNat 8 (w.toNat % 256)), seq := .idle } ∧
      b8 = (if update = .assign then decide (w.toNat / 256 % 2 = 1)
        else s.txb8 || decide (w.toNat / 256 % 2 = 1)) := by
  refine ⟨nextTxb8 update s.txb8 (ninthBit w), ?_, ?_⟩
  · rw [txWord9, holdUntilUdre_none hs, lowByte_eq]
    rfl
  · rw [nextTxb8_eq, ninthBit_eq]

/-- Settles O26: the instruction is TX_WORD9 under the implementation's own reading. -/
theorem txWord9WritesTheNinthBitFirst : Obligations.TxWord9WritesTheNinthBitFirst :=
  ⟨fun w _ => ⟨fun hs => txWord9_of_empty hs Config.tx9Update w, exec_transmits_full rfl⟩,
    fun update w _ hs => txWord9_of_empty hs update w⟩

/-! ### The hold (41_transmit.md R170) -/

theorem udre_eq_false_iff : s.udre = false ↔ s.txBuf ≠ none := by
  simp [State.udre, Option.isNone_eq_false_iff, Option.isSome_iff_ne_none]

/-- At the closed port only the sequencer and reset change the sequencer state: the host's moves are not
enabled, and the line agents keep to their side (44_line_side.md R215). -/
theorem perform_seq_of_closed (hs : s.seq ≠ .idle) (hx : m ≠ .sequencer) (hm : ∀ u, m ≠ .reset u)
    (hn : perform m s = .next t) : t.seq = s.seq := by
  obtain ⟨w, -, rfl⟩ | ⟨text, -, h⟩ | ⟨-, rfl⟩ | ⟨-, rfl⟩ | ⟨-, rfl⟩ | ⟨u, h, -⟩ | ⟨h, -⟩ | ⟨-, rfl⟩ |
    ⟨-, rfl⟩ | ⟨e, -, rfl⟩ | ⟨-, rfl⟩ := perform_next hn
  · rw [hostIssue_of_closed (.inl hs)]
  · rw [hostIssueText_of_closed (.inl hs)] at h
    cases h
    rfl
  · rw [hostIssueNext_of_not_idle hs]
  · obtain ⟨-, h⟩ | ⟨r, -, h⟩ := hostCollect_cases s <;> simp [h]
  · rfl
  · exact absurd h (hm u)
  · exact absurd h hx
  · obtain ⟨b8, d, -, -, h⟩ | ⟨-, h⟩ := lineTxLoad_cases s <;> simp [h]
  · obtain ⟨f, -, h⟩ | ⟨-, h⟩ := lineTxShift_cases s <;> simp [h]
  · obtain ⟨-, -, h⟩ | h := lineRxDeliver_cases e s <;> simp [h]
  · obtain ⟨-, -, h⟩ | h := lineRxOverrun_cases s <;> simp [h]

/-- Only a load and reset empty a full transmit buffer. -/
theorem perform_txBuf_of_full (hb : s.txBuf ≠ none) (hload : m ≠ .txLoad) (hm : ∀ u, m ≠ .reset u)
    (hn : perform m s = .next t) : t.txBuf = s.txBuf := by
  obtain ⟨⟨b8, d⟩, hb⟩ := Option.ne_none_iff_exists'.1 hb
  obtain h | ⟨h, -⟩ := bufferedByteKeepsItsNinthBit m s t b8 d hb hn hm
  · rw [h, hb]
  · exact absurd h hload

/-- Settles O27: while the buffer stays full the sequencer's move is a hold, and no other agent's move takes
the command out of flight. -/
theorem transmitHoldsWhileTheBufferIsFull : Obligations.TransmitHoldsWhileTheBufferIsFull := by
  refine ⟨fun s i hi hu => exec_transmits_full hi (udre_eq_false_iff.1 hu), ?_⟩
  rintro m s t ⟨⟨i, hs, hi⟩, hu⟩ hload hm hn
  have hb : s.txBuf ≠ none := udre_eq_false_iff.1 hu
  have hseq : t.seq = s.seq := by
    by_cases hx : m = .sequencer
    · subst hx
      cases (exec_transmits_full hi hb).symm.trans (exec_of_perform_sequencer hs hn)
      rfl
    · exact perform_seq_of_closed (by simp [hs]) hx hm hn
  refine ⟨⟨⟨i, hseq.trans hs, hi⟩, udre_eq_false_iff.2 ?_⟩, hseq⟩
  rwa [perform_txBuf_of_full hb hload hm hn]

end Sys2Proof.Machine
end
section
/-! The receive commands (42_receive.md): the result word and the frame of each one, the order of the errors
RX_CHECKED reports, and the hold while RXC = 0. -/

namespace Sys2Proof.Machine

variable {s t : State} {i : Instr} {m : Move}

/-! ### Result words as numbers (30_encoding.md R113) -/

theorem byteResult_eq (d : Byte) : byteResult d = BitVec.ofNat 16 d.toNat := by
  rw [byteResult, ← BitVec.ofNat_toNat]

theorem wordResult_eq (b8 : Bit) (d : Byte) :
    wordResult b8 d = BitVec.ofNat 16 (256 * b8.toNat + d.toNat) := by
  rw [wordResult, ← BitVec.ofNat_toNat, nineBits_toNat]

theorem checkedResult_eq (code : BitVec 2) (d : Byte) :
    checkedResult code d = BitVec.ofNat 16 (256 * code.toNat + d.toNat) := by
  have hcode := code.isLt
  have hd := d.isLt
  apply BitVec.eq_of_toNat_eq
  have hzero : (0 : BitVec 6).toNat = 0 := rfl
  rw [checkedResult, toNat_append_eq, toNat_append_eq, BitVec.toNat_ofNat, hzero]
  omega

/-! ### The classification (42_receive.md R189) -/

/-- Settles O38: the eight flag triples. -/
theorem classificationTakesTheFirstError : Obligations.ClassificationTakesTheFirstError := by
  unfold Obligations.ClassificationTakesTheFirstError
  decide

/-- The detection code is the number of the first error set, and 0 where none is (30_encoding.md R114). -/
theorem detectionCode_classify (fe dor pe : Bit) :
    (detectionCode (classify fe dor pe)).toNat =
      if fe = true then 1 else if dor = true then 2 else if pe = true then 3 else 0 := by
  cases fe <;> cases dor <;> cases pe <;> rfl

/-! ### Each receive command (42_receive.md R186, R188, R191) -/

/-- A receive command with the frame `h` waiting answers `x`, its result for `h` sampled before the read, drains
the frame and completes; of the model's views of an empty buffer this says nothing (log 8). -/
theorem exec_delivers {resultOf : State → RxEntry → ResultWord} {x : ResultWord} {h : RxEntry}
    {rest : List RxEntry} (hr : exec i s = receive resultOf s) (hs : s.rxFifo = h :: rest)
    (hx : resultOf s h = x) :
    ∃ t, exec i s = .next t ∧
      t = { s with
        result := some x, rxFifo := rest, dor := false, seq := .idle,
        emptyFe := t.emptyFe, emptyPe := t.emptyPe, emptyRxb8 := t.emptyRxb8, draws := t.draws } := by
  subst hx
  exact ⟨_, hr.trans (receive_cons hs), received_frame s rest (resultOf s h)⟩

/-- A receive command finds RXC = 0 and holds, whichever one it is (42_receive.md R185). -/
theorem exec_receives_nil (hi : i.receives = true) (hs : s.rxFifo = []) : exec i s = .next s := by
  obtain ⟨resultOf, h⟩ := exec_of_receives hi s
  rw [h, receive_nil hs]

/-- Settles O33. -/
theorem rxByteAnswersTheHead : Obligations.RxByteAnswersTheHead :=
  fun s => ⟨fun h _ hs => exec_delivers (exec_urx s) hs (byteResult_eq h.data8), exec_receives_nil rfl⟩

/-- Settles O34: RXB8 is the head's ninth bit. -/
theorem rxWord9AnswersTheNinthBit : Obligations.RxWord9AnswersTheNinthBit := by
  refine fun s => ⟨fun h rest hs => exec_delivers (exec_urx9 s) hs ?_, exec_receives_nil rfl⟩
  have hbit : s.rxb8 = h.bit8 := by rw [State.rxb8, hs]
  rw [hbit, wordResult_eq]

/-- Settles O35: FE and PE are the head's. -/
theorem rxCheckedReportsTheFirstError : Obligations.RxCheckedReportsTheFirstError := by
  refine fun s => ⟨fun h rest hs => exec_delivers (exec_urxe s) hs ?_, exec_receives_nil rfl⟩
  have hfe : s.fe = h.fe := by rw [State.fe, hs]
  have hpe : s.pe = h.pe := by rw [State.pe, hs]
  rw [hfe, hpe, checkedResult_eq, detectionCode_classify]

/-! ### The hold (42_receive.md R185) -/

theorem rxc_eq_false_iff : s.rxc = false ↔ s.rxFifo = [] := by
  simp [State.rxc]

/-- Only a delivery with RXEN = 1 puts a frame in an empty receive buffer (44_line_side.md R219). -/
theorem perform_rxFifo_of_empty (hs : s.rxFifo = []) (hrx : s.rxen = false ∨ ∀ e, m ≠ .rxDeliver e)
    (hn : perform m s = .next t) : t.rxFifo = [] := by
  obtain ⟨h, -⟩ | ⟨e, hm, hon, -⟩ | ⟨i, h, -, -, -, hread⟩ | ⟨-, -, -, -, -, h⟩ | ⟨u, -, h⟩ :=
    receiveBufferChangesOneFrameAtATime m s t hn
  · exact h.trans hs
  · obtain hoff | hne := hrx
    · cases hoff.symm.trans hon
    · exact absurd hm (hne e)
  · cases hs.symm.trans hread
  · exact h
  · exact h

/-- Settles O36: while the buffer stays empty the sequencer's move is a hold, and no other agent's move takes
the command out of flight. -/
theorem receiveHoldsWhileTheBufferIsEmpty : Obligations.ReceiveHoldsWhileTheBufferIsEmpty := by
  refine ⟨fun s i hi hc => exec_receives_nil hi (rxc_eq_false_iff.1 hc), ?_⟩
  rintro m s t ⟨⟨i, hs, hi⟩, hc⟩ hrx hm hn
  have hempty : s.rxFifo = [] := rxc_eq_false_iff.1 hc
  have hseq : t.seq = s.seq := by
    by_cases hx : m = .sequencer
    · subst hx
      cases (exec_receives_nil hi hempty).symm.trans (exec_of_perform_sequencer hs hn)
      rfl
    · exact perform_seq_of_closed (by simp [hs]) hx hm hn
  exact ⟨⟨⟨i, hseq.trans hs, hi⟩, rxc_eq_false_iff.2 (perform_rxFifo_of_empty hempty hrx hn)⟩, hseq⟩

end Sys2Proof.Machine
end

section
/-! The control command DISABLE (43_disable.md): its exact effect. -/

namespace Sys2Proof.Machine

/-- What DISABLE leaves in the receive buffer: RXEN falls just where it was 1 (43_disable.md R206). -/
theorem flushIfDisabled_setDuplex_off_rxFifo (flush : Bool) (s : State) :
    (flushIfDisabled flush s.rxen (s.setDuplex (false, false))).rxFifo =
      if s.rxen = true ∧ flush = true then [] else s.rxFifo := by
  simp [flushIfDisabled_rxFifo]

/-- Settles O41: besides the two enables and the sequencer, only the flush writes, and it keeps to the receive
buffer. -/
theorem disableClearsOnlyTheEnables : Obligations.DisableClearsOnlyTheEnables := by
  intro s
  refine ⟨_, exec_udis s, ?_⟩
  rw [flushIfDisabled_frame, flushIfDisabled_setDuplex_off_rxFifo]
  rfl

end Sys2Proof.Machine
end

section
/-! The line side (44_line_side.md): the exact effect of each line step, what a line agent leaves alone, the
transmit hold that a fair Line-TX lifts, and the receive hold with the receiver off. -/

namespace Sys2Proof.Machine

variable {s t : State} {m : Move} {moves : Nat → Move} {states : Nat → State} {n : Nat}

/-! ### Line-TX (44_line_side.md R217, R218) -/

theorem perform_txLoad_disabled (h : s.txBuf = none ∨ s.txShift ≠ none) :
    perform .txLoad s = .next s := by
  obtain ⟨b8, d, hb, hf, -⟩ | ⟨-, hs⟩ := lineTxLoad_cases s
  · simp [hb, hf] at h
  · exact congrArg _ hs

/-- Settles O43: the frame is the snapshot `frameOf` takes of the format. -/
theorem lineTxLoadTakesTheBufferedByte : Obligations.LineTxLoadTakesTheBufferedByte :=
  fun _ => ⟨fun _ _ hb hf => perform_txLoad_enabled hb hf, perform_txLoad_disabled⟩

theorem perform_txShift_disabled (h : s.txShift = none) : perform .txShift s = .next s := by
  rw [perform, lineTxShift, h]

/-- What a shift writes to TXC: 1 when no byte waits, else what it was (44_line_side.md R218). -/
theorem txc_or_txBuf_isNone (s : State) : (s.txc || s.txBuf.isNone) = if s.txBuf = none then true else s.txc := by
  cases s.txBuf <;> simp

/-- Settles O44. -/
theorem lineTxShiftFinishesTheFrame : Obligations.LineTxShiftFinishesTheFrame := by
  refine fun s => ⟨fun f hf => ?_, perform_txShift_disabled⟩
  rw [perform_txShift_enabled hf, txc_or_txBuf_isNone]
  rfl

/-! ### Line-RX (44_line_side.md R219, R220) -/

theorem perform_rxDeliver_enabled (hon : s.rxen = true) (hroom : s.rxFifo.length < Config.rxDepth)
    (e : RxEntry) : perform (.rxDeliver e) s = .next (s.setRxFifo (s.rxFifo ++ [e])) :=
  congrArg _ (if_pos ⟨hon, hroom⟩)

theorem perform_rxDeliver_disabled (h : s.rxen = false ∨ Config.rxDepth ≤ s.rxFifo.length)
    (e : RxEntry) : perform (.rxDeliver e) s = .next s := by
  refine congrArg _ (if_neg ?_)
  rintro ⟨hon, hroom⟩
  obtain hoff | hfull := h
  · exact absurd hon (by simp [hoff])
  · omega

theorem perform_rxOverrun_enabled (hon : s.rxen = true) (hfull : s.rxFifo.length = Config.rxDepth) :
    perform .rxOverrun s = .next (s.setDor true) :=
  congrArg _ (if_pos ⟨hon, hfull⟩)

theorem perform_rxOverrun_disabled (h : s.rxen = false ∨ s.rxFifo.length ≠ Config.rxDepth) :
    perform .rxOverrun s = .next s := by
  refine congrArg _ (if_neg ?_)
  rintro ⟨hon, hfull⟩
  obtain hoff | hroom := h
  · exact absurd hon (by simp [hoff])
  · exact hroom hfull

/-- Settles O45: each step is the one branch its condition chooses. -/
theorem lineRxDeliversOrOverruns : Obligations.LineRxDeliversOrOverruns :=
  fun _ e => ⟨fun hon hroom => perform_rxDeliver_enabled hon hroom e,
    fun h => perform_rxDeliver_disabled h e, perform_rxOverrun_enabled, perform_rxOverrun_disabled⟩

/-! ### What a line agent leaves alone (44_line_side.md R215, R224) -/

/-- Settles O46: an enabled line step writes fields of the line side alone, and one that is not enabled writes
none. -/
theorem lineAgentsKeepToTheLineSide : Obligations.LineAgentsKeepToTheLineSide := by
  rintro m s t hm hn
  obtain rfl | rfl | ⟨e, rfl⟩ | rfl := hm <;> cases hn
  · obtain ⟨b8, d, -, -, h⟩ | ⟨-, h⟩ := lineTxLoad_cases s
    · rw [h]
      rfl
    · rw [h]
  · obtain ⟨f, -, h⟩ | ⟨-, h⟩ := lineTxShift_cases s
    · rw [h]
      rfl
    · rw [h]
  · obtain ⟨-, -, h⟩ | h := lineRxDeliver_cases e s
    · rw [h]
      rfl
    · rw [h]
  · obtain ⟨-, -, h⟩ | h := lineRxOverrun_cases s
    · rw [h]
      rfl
    · rw [h]

/-! ### The transmit hold under fairness (44_line_side.md R222) -/

theorem txShift_of_perform_txShift (hn : perform .txShift s = .next t) : t.txShift = none := by
  cases hn
  obtain ⟨f, -, h⟩ | ⟨hf, h⟩ := lineTxShift_cases s <;> rw [h]
  · rfl
  · exact hf

/-- With the shift register empty, a load leaves the buffer empty, whether or not a byte waited. -/
theorem txBuf_of_perform_txLoad (hf : s.txShift = none) (hn : perform .txLoad s = .next t) :
    t.txBuf = none := by
  cases hn
  obtain ⟨b8, d, -, -, h⟩ | ⟨hb | hf', h⟩ := lineTxLoad_cases s
  · rw [h]
    rfl
  · rw [h, hb]
  · exact absurd hf hf'

theorem HostSideOnly.txShift (h : HostSideOnly s t) : t.txShift = s.txShift := by rw [h]

/-- Only a load puts a frame in the empty shift register. -/
theorem perform_txShift_of_empty (hf : s.txShift = none) (hload : m ≠ .txLoad)
    (hn : perform m s = .next t) : t.txShift = none := by
  obtain ⟨w, -, rfl⟩ | ⟨text, -, h⟩ | ⟨-, rfl⟩ | ⟨-, rfl⟩ | ⟨-, rfl⟩ | ⟨u, -, rfl⟩ | ⟨-, h⟩ | ⟨h, -⟩ |
    ⟨rfl, -⟩ | ⟨e, -, rfl⟩ | ⟨-, rfl⟩ := perform_next hn
  · exact (hostIssue_hostSideOnly w s).txShift.trans hf
  · exact (hostIssueText_hostSideOnly h).txShift.trans hf
  · exact (hostIssueNext_hostSideOnly s).txShift.trans hf
  · exact (hostCollect_hostSideOnly s).txShift.trans hf
  · exact hf
  · rfl
  · obtain ⟨i, -, -, hx⟩ | ⟨-, rfl⟩ := sequencerStep_next h
    · exact (exec_lineTx_frame hx).2.2.trans hf
    · exact hf
  · exact absurd h hload
  · exact txShift_of_perform_txShift hn
  · obtain ⟨-, -, h⟩ | h := lineRxDeliver_cases e s <;> rw [h] <;> exact hf
  · obtain ⟨-, -, h⟩ | h := lineRxOverrun_cases s <;> rw [h] <;> exact hf

/-- A fair Line-TX finishes the frame in the shift register, if TXEN stays 1. -/
theorem txShift_empties_of_fairTx (hrun : IsRun moves states) (hfair : FairTx moves states)
    (hon : ∀ k, n ≤ k → (states k).txen = true) : ∃ k, n ≤ k ∧ (states k).txShift = none := by
  by_contra! hbusy
  obtain ⟨k, hk, hm⟩ := hfair.2 n fun k hk => ⟨hon k hk, hbusy k hk⟩
  exact hbusy (k + 1) (by omega) (txShift_of_perform_txShift (hm ▸ hrun k))

/-- While the buffer stays full, an empty shift register stays empty: a load would free the buffer. -/
theorem txShift_stays_empty (hrun : IsRun moves states) (hfull : ∀ k, n ≤ k → (states k).txBuf ≠ none)
    (hf : (states n).txShift = none) : ∀ k, n ≤ k → (states k).txShift = none := by
  intro k hk
  induction k, hk using Nat.le_induction with
  | base => exact hf
  | succ k hk ih =>
    refine perform_txShift_of_empty ih (fun hm => ?_) (hrun k)
    exact hfull (k + 1) (by omega) (txBuf_of_perform_txLoad ih (hm ▸ hrun k))

/-- Settles O47: if the buffer stayed full, the shift register would empty and stay empty, so the load would
stay enabled and be taken, which frees the buffer. -/
theorem fairTransmitHoldsLift : Obligations.FairTransmitHoldsLift := by
  intro moves states hrun hfair n _ hon
  by_contra! hhold
  have hfull (k : Nat) (hk : n ≤ k) : (states k).txBuf ≠ none :=
    udre_eq_false_iff.1 (Bool.eq_false_iff.2 (hhold k hk))
  obtain ⟨a, ha, hf⟩ := txShift_empties_of_fairTx hrun hfair hon
  have hempty := txShift_stays_empty hrun (fun k hk => hfull k (ha.trans hk)) hf
  obtain ⟨k, hk, hm⟩ := hfair.1 a fun k hk =>
    ⟨hon k (ha.trans hk), hfull k (ha.trans hk), hempty k hk⟩
  exact hfull (k + 1) (by omega) (txBuf_of_perform_txLoad (hempty k hk) (hm ▸ hrun k))

/-! ### The receive hold and the receiver (44_line_side.md R223) -/

/-- Only a command that completes changes RXEN (10_state.md R37). -/
theorem perform_rxen_of_not_idle (ht : t.seq ≠ .idle) (hm : ∀ u, m ≠ .reset u)
    (hn : perform m s = .next t) : t.rxen = s.rxen := by
  obtain h | ⟨-, hidle, -⟩ := perform_controls hn hm
  · exact congrArg Controls.rxen h
  · exact absurd hidle ht

/-- With RXEN = 0 no move but reset ends a receive hold: no frame can arrive, and the command that holds does
not turn the receiver on. -/
theorem perform_holdsRx_of_off (hs : s.holdsRx) (hoff : s.rxen = false) (hm : ∀ u, m ≠ .reset u)
    (hn : perform m s = .next t) : t.holdsRx ∧ t.rxen = false ∧ t.seq = s.seq := by
  obtain ⟨ht, hseq⟩ := receiveHoldsWhileTheBufferIsEmpty.2 m s t hs (.inl hoff) hm hn
  have ⟨⟨i, hi, _⟩, _⟩ := ht
  exact ⟨ht, (perform_rxen_of_not_idle (by simp [hi]) hm hn).trans hoff, hseq⟩

theorem run_holdsRx_of_off (hrun : IsRun moves states) (hs : (states n).holdsRx)
    (hoff : (states n).rxen = false) (hm : ∀ k u, n ≤ k → moves k ≠ .reset u) {k : Nat} (hk : n ≤ k) :
    (states k).holdsRx ∧ (states k).rxen = false ∧ (states k).seq = (states n).seq := by
  induction k, hk using Nat.le_induction with
  | base => exact ⟨hs, hoff, rfl⟩
  | succ k hk ih =>
    obtain ⟨hs, hoff, hseq⟩ := ih
    obtain ⟨hs', hoff', hseq'⟩ := perform_holdsRx_of_off hs hoff (fun u => hm k u hk) (hrun k)
    exact ⟨hs', hoff', hseq'.trans hseq⟩

/-- A delivery with RXEN = 1 leaves a frame waiting: its own, or those of a full buffer. -/
theorem rxc_of_perform_rxDeliver {e : RxEntry} (hon : s.rxen = true)
    (hn : perform (.rxDeliver e) s = .next t) : t.rxc = true := by
  by_cases hroom : s.rxFifo.length < Config.rxDepth
  · cases (perform_rxDeliver_enabled hon hroom e).symm.trans hn
    simp [State.rxc]
  · cases (perform_rxDeliver_disabled (.inr (by omega)) e).symm.trans hn
    by_contra hc
    rw [Bool.not_eq_true, rxc_eq_false_iff] at hc
    exact hroom (by simp [hc, Config.rxDepth])

/-- Settles O40: the hold is kept along the run, so the run has hung; and a delivery with the receiver on
leaves RXC = 1. -/
theorem receiveHoldWithReceiverOffIsForever : Obligations.ReceiveHoldWithReceiverOffIsForever := by
  refine ⟨fun _ _ _ => perform_holdsRx_of_off, ?_, ?_⟩
  · intro moves states n hrun hs hoff hm k hk
    obtain ⟨hs, -, hseq⟩ := run_holdsRx_of_off hrun hs hoff hm hk
    exact ⟨.inr hs, hseq⟩
  · rintro moves states n hrun hon ⟨k, e, hk, hm⟩
    exact ⟨k + 1, by omega, rxc_of_perform_rxDeliver (hon k hk) (hm ▸ hrun k)⟩

end Sys2Proof.Machine
end

section
/-! Faults (60_exceptions.md): which moves raise one and what that step writes (R235 to R237), that only reset
leaves one (R239), that none of them stops the machine, and the request outputs (R243). -/

namespace Sys2Proof.Machine

variable {s t : State} {i : Instr} {m : Move} {c : FaultCode} {w v : CmdWord}

/-! ### The moves that raise a fault -/

/-- A fault raised by the port names the word taken up (60_exceptions.md R237). -/
theorem acceptWord_of_seq_faulted (h : (acceptWord v s).seq = .faulted c w) :
    v = w ∧ acceptWord v s = s.setSeq (.faulted c w) := by
  cases hd : decode v with
  | legal i =>
    rw [acceptWord_of_legal hd] at h
    cases h
  | illegal code =>
    rw [acceptWord_of_illegal hd] at h ⊢
    cases h
    exact ⟨rfl, rfl⟩

/-- A fault raised by an execution is INIT's BAUD_ZERO, and the latch is all it writes (40_configuration.md
R134). -/
theorem exec_raises_fault (hs : ∀ c w, s.seq ≠ .faulted c w) (hn : exec i s = .next t)
    (ht : t.seq = .faulted c w) :
    c = .baudZero ∧ (∃ cfg, i = .uinit cfg ∧ cfg.baud = 0 ∧ initWord cfg = w) ∧
      t = s.setSeq (.faulted c w) := by
  obtain ⟨cfg, hi, ⟨hb, rfl⟩ | ⟨-, rfl⟩⟩ | ⟨-, rfl⟩ | ⟨-, -, rfl⟩ | ⟨d, -, -, rfl⟩ | ⟨x, b, -, -, -, rfl⟩ |
    ⟨-, -, rfl⟩ | ⟨h, rest, r, -, -, -, rfl⟩ | ⟨x, -, rfl⟩ := exec_next hn
  · cases ht
    exact ⟨rfl, ⟨cfg, hi, hb, rfl⟩, rfl⟩
  · cases ht
  · cases ht
  · exact absurd ht (hs c w)
  · cases ht
  · cases ht
  · exact absurd ht (hs c w)
  · cases ht
  · cases ht

/-- Settles O14: INIT's own word is the one its fault records. -/
theorem onlyInitFaultsAtExecution : Obligations.OnlyInitFaultsAtExecution := by
  intro i s t c w hs hn ht
  obtain ⟨hc, ⟨cfg, rfl, hb, rfl⟩, -⟩ := exec_raises_fault hs hn ht
  exact ⟨hc, cfg, rfl, hb, rfl⟩

/-- A line agent does not touch the sequencer state (44_line_side.md R215). -/
theorem perform_seq_of_line (hm : m = .txLoad ∨ m = .txShift ∨ (∃ e, m = .rxDeliver e) ∨ m = .rxOverrun)
    (hn : perform m s = .next t) : t.seq = s.seq := by
  rw [lineAgentsKeepToTheLineSide m s t hm hn]

theorem hostCollect_seq (s : State) : (hostCollect s).seq = s.seq := by
  obtain ⟨-, h⟩ | ⟨r, -, h⟩ := hostCollect_cases s <;> simp [h]

/-- A move that raises a fault writes the latch alone, or takes the faulting word off the host's expansion as
well: the port and INIT are the two that raise one (60_exceptions.md R236). -/
theorem perform_raises_fault (hs : ∀ c w, s.seq ≠ .faulted c w) (hn : perform m s = .next t)
    (ht : t.seq = .faulted c w) :
    t = s.setSeq (.faulted c w) ∨
      ∃ rest, s.hostQueue = w :: rest ∧ t = (s.setHostQueue rest).setSeq (.faulted c w) := by
  have unchanged : t.seq ≠ s.seq := fun h => hs c w (h.symm.trans ht)
  obtain ⟨v, -, rfl⟩ | ⟨text, -, h⟩ | ⟨-, rfl⟩ | ⟨-, rfl⟩ | ⟨-, rfl⟩ | ⟨u, -, rfl⟩ | ⟨-, h⟩ | ⟨hm, -⟩ |
    ⟨hm, -⟩ | ⟨e, hm, -⟩ | ⟨hm, -⟩ := perform_next hn
  · obtain ⟨-, -, h⟩ | ⟨-, h⟩ := hostIssue_cases v s
    · rw [h] at ht ⊢
      exact .inl (acceptWord_of_seq_faulted ht).2
    · exact absurd (congrArg State.seq h) unchanged
  · obtain ⟨-, -, h'⟩ | ⟨-, h'⟩ := hostIssueText_cases text s <;> rw [h'] at h <;> cases h
    · cases ht
    · exact absurd rfl unchanged
  · obtain ⟨v, rest, -, hq, h⟩ | ⟨-, h⟩ := hostIssueNext_cases s
    · rw [h] at ht ⊢
      obtain ⟨rfl, h⟩ := acceptWord_of_seq_faulted ht
      exact .inr ⟨rest, hq, h⟩
    · exact absurd (congrArg State.seq h) unchanged
  · exact absurd (hostCollect_seq s) unchanged
  · exact absurd rfl unchanged
  · cases ht
  · obtain ⟨i, -, -, hx⟩ | ⟨-, rfl⟩ := sequencerStep_next h
    · exact .inl (exec_raises_fault hs hx ht).2.2
    · exact absurd rfl unchanged
  · exact absurd (perform_seq_of_line (.inl hm) hn) unchanged
  · exact absurd (perform_seq_of_line (.inr (.inl hm)) hn) unchanged
  · exact absurd (perform_seq_of_line (.inr (.inr (.inl ⟨e, hm⟩))) hn) unchanged
  · exact absurd (perform_seq_of_line (.inr (.inr (.inr hm))) hn) unchanged

/-- Settles O13: a step is one move from the state with its script advanced. -/
theorem raisingAFaultWritesOnlyTheLatch : Obligations.RaisingAFaultWritesOnlyTheLatch := by
  intro s t c w hs hn ht
  have hs' : ∀ c w, s.advance.seq ≠ .faulted c w := by simpa using hs
  obtain rfl | ⟨rest, hq, rfl⟩ := perform_raises_fault hs' hn ht
  · exact ⟨rfl, .inl (advance_hostQueue s)⟩
  · exact ⟨rfl, .inr ((advance_hostQueue s).symm.trans hq)⟩

/-! ### The latch -/

/-- Settles O12: every other move of the step keeps the latch, and the reset input opens the port. -/
theorem faultLatchHoldsUntilReset : Obligations.FaultLatchHoldsUntilReset := by
  intro s t c w hs hn
  by_cases hm : ∃ u, s.nextMove = .reset u
  · obtain ⟨u, hm⟩ := hm
    rw [step, hm] at hn
    cases hn
    exact .inr ⟨u, hm, rfl⟩
  · have hm : ∀ u, s.nextMove ≠ .reset u := not_exists.1 hm
    exact .inl ⟨perform_seq_of_faulted ((advance_seq s).trans hs) hm hn, hm⟩

/-! ### No fault of the model -/

/-- The sequencer answers a next state if what is in flight is a command (30_encoding.md R106; log 17). -/
theorem sequencerStep_answers (hs : ∀ i, s.seq = .busy i → i.wf = true) :
    ∃ t, sequencerStep s = .next t := by
  cases h : s.seq with
  | idle => exact ⟨s, by rw [sequencerStep, h]⟩
  | busy i =>
    obtain ⟨t, ht⟩ := exec_answers i s
    exact ⟨t, (perform_sequencer_busy (hs i h) h).trans ht⟩
  | faulted c w => exact ⟨s, by rw [sequencerStep, h]⟩

/-- The sequencer's is the only move that could fail to answer a next state. -/
theorem perform_answers (hs : ∀ i, s.seq = .busy i → i.wf = true) (m : Move) :
    ∃ t, perform m s = .next t := by
  cases m with
  | sequencer => exact sequencerStep_answers hs
  | issueText text =>
    obtain ⟨-, -, h⟩ | ⟨-, h⟩ := hostIssueText_cases text s
    · exact ⟨_, h⟩
    · exact ⟨_, h⟩
  | issue _ | issueNext | collect | snapshot | reset _ | txLoad | txShift | rxDeliver _ | rxOverrun =>
    exact ⟨_, rfl⟩

/-- Settles O55: by the invariant, what is in flight is a command. -/
theorem stepAlwaysAnswersANextState : Obligations.StepAlwaysAnswersANextState :=
  fun s hi => perform_answers hi.advance.inFlight s.nextMove

/-! ### The request outputs -/

theorem udre_eq_true_iff : s.udre = true ↔ s.txBuf = none :=
  Option.isNone_iff_eq_none

theorem rxc_eq_true_iff : s.rxc = true ↔ s.rxFifo ≠ [] := by
  rw [← Bool.not_eq_false, Ne, rxc_eq_false_iff]

/-- Settles O52: an output is the conjunction of its enable bit and its flag, two of which are views of a
buffer. -/
theorem requestOutputsAreEnableAndFlag : Obligations.RequestOutputsAreEnableAndFlag := by
  intro s
  rw [State.irqRxc, State.irqTxc, State.irqUdre]
  simp only [Bool.and_eq_true, rxc_eq_true_iff, udre_eq_true_iff, and_self]

end Sys2Proof.Machine
end

section
/-! Reset and the host (70_reset_and_hazards.md R265, R279), and the expansion of UTXS under every schedule
(41_transmit.md R176): each move of an agent keeps the bytes planned, so none is lost, added or reordered. -/

namespace Sys2Proof.Machine

variable {s t : State} {m : Move} {d : Byte}

/-! ### Collecting and reset -/

theorem hostCollect_of_some {r : ResultWord} (hr : s.result = some r) :
    hostCollect s = (s.setCollected (s.collected ++ [r])).setResult none := by
  simp only [hostCollect, hr]

theorem hostCollect_of_none (hr : s.result = none) : hostCollect s = s := by
  simp only [hostCollect, hr]

/-- Settles O50. -/
theorem hostCollectsAndObserves : Obligations.HostCollectsAndObserves :=
  fun _ => ⟨fun _ hr => congrArg _ (hostCollect_of_some hr),
    fun hr => congrArg _ (hostCollect_of_none hr), rfl⟩

/-- Settles O49: the reset input is the power-on state but for fields of the model's own. -/
theorem resetRestoresEveryComponent : Obligations.ResetRestoresEveryComponent := by
  intro s u
  refine ⟨resetInput u s, rfl, ?_⟩
  rintro t (rfl | rfl)
  · exact ⟨rfl, rfl, rfl, rfl⟩
  · exact ⟨rfl, rfl, rfl, rfl⟩

/-! ### The bytes planned (41_transmit.md R176) -/

/-- The low byte of a value handed over is the byte it was made from (20_memory.md R75). -/
theorem setWidth_nineBits (b8 : Bit) (d : Byte) : (nineBits b8 d).setWidth 8 = d := by
  have hd := d.isLt
  rw [← BitVec.toNat_inj, BitVec.toNat_setWidth, nineBits_toNat]
  omega

theorem wordBytes_of_utx {w : CmdWord} (h : decode w = .legal (.utx d)) : wordBytes w = [d] := by
  simp only [wordBytes, h]

/-- Where an expansion can stand: the port is open or a TX_BYTE is in flight. -/
def State.InExpansion (s : State) : Prop := s.seq = .idle ∨ ∃ d, s.seq = .busy (.utx d)

/-- From `s` to `t` the planned bytes are the same, and in `t` an expansion can go on. -/
def KeepsExpansion (s t : State) : Prop := t.plannedBytes = s.plannedBytes ∧ t.InExpansion

theorem keepsExpansion_self (hs : s.InExpansion) : KeepsExpansion s s := ⟨rfl, hs⟩

/-- The plan is read off the stream handed over, the sequencer state and the host's queue. -/
theorem keepsExpansion_of_unchanged (hs : s.InExpansion) (hover : t.handedOver = s.handedOver)
    (hseq : t.seq = s.seq) (hqueue : t.hostQueue = s.hostQueue) : KeepsExpansion s t := by
  refine ⟨?_, ?_⟩
  · rw [State.plannedBytes, State.plannedBytes, hover, hseq, hqueue]
  · rwa [State.InExpansion, hseq]

/-! ### The moves of an expansion -/

/-- Issuing the next word moves its byte from the host's queue into flight: every word of the queue is
TX_BYTE's. -/
theorem hostIssueNext_keepsExpansion (hi : s.Inv) (hs : s.InExpansion) :
    KeepsExpansion s (hostIssueNext s) := by
  obtain ⟨w, rest, hidle, hq, h⟩ | ⟨-, h⟩ := hostIssueNext_cases s <;> rw [h]
  · obtain ⟨d, hd⟩ := hi.queue w (hq ▸ List.mem_cons_self)
    rw [acceptWord_of_legal hd]
    have hover : ((s.setHostQueue rest).setSeq (.busy (.utx d))).handedOver = s.handedOver :=
      handedOver_congr rfl rfl rfl
    refine ⟨?_, .inr ⟨d, rfl⟩⟩
    simp [State.plannedBytes, hover, Seq.bytes, hidle, hq, wordBytes_of_utx hd]
  · exact keepsExpansion_self hs

/-- Executing TX_BYTE moves its byte from flight to the end of the stream, or holds. -/
theorem exec_utx_keepsExpansion (hs : s.seq = .busy (.utx d)) (hn : exec (.utx d) s = .next t) :
    KeepsExpansion s t := by
  obtain ⟨-, rfl⟩ | ⟨hb, rfl⟩ := holdUntilUdre_next hn
  · exact keepsExpansion_self (.inr ⟨d, hs⟩)
  · have hover : ((s.setTxBuf (some (s.txb8, d))).setSeq .idle).handedOver =
        s.handedOver ++ [nineBits s.txb8 d] :=
      handedOver_of_fill rfl rfl hb rfl
    refine ⟨?_, .inl rfl⟩
    simp [State.plannedBytes, Seq.bytes, hs, hover, setWidth_nineBits]

theorem sequencerStep_keepsExpansion (hs : s.InExpansion) (hn : sequencerStep s = .next t) :
    KeepsExpansion s t := by
  obtain ⟨i, hi, -, hx⟩ | ⟨-, rfl⟩ := sequencerStep_next hn
  · obtain hidle | ⟨d, hd⟩ := hs
    · cases hidle.symm.trans hi
    · cases hd.symm.trans hi
      exact exec_utx_keepsExpansion hd hx
  · exact keepsExpansion_self hs

/-- Only the sequencer and reset change the stream of values handed over. -/
theorem perform_handedOver (hx : m ≠ .sequencer) (hm : ∀ u, m ≠ .reset u) (hn : perform m s = .next t) :
    t.handedOver = s.handedOver := by
  obtain h | ⟨h, -⟩ | ⟨u, h, -⟩ := handedOverStreamGrowsInOrder m s t hn
  · exact h
  · exact absurd h hx
  · exact absurd h (hm u)

/-- A line agent moves values along the stream, and touches neither the sequencer state nor the host's
queue (44_line_side.md R215). -/
theorem perform_line_keepsExpansion (hs : s.InExpansion)
    (hm : m = .txLoad ∨ m = .txShift ∨ (∃ e, m = .rxDeliver e) ∨ m = .rxOverrun)
    (hn : perform m s = .next t) : KeepsExpansion s t := by
  have hover : t.handedOver = s.handedOver := by
    obtain rfl | rfl | ⟨e, rfl⟩ | rfl := hm <;>
      exact perform_handedOver (by nofun) (by nofun) hn
  have hline := lineAgentsKeepToTheLineSide m s t hm hn
  exact keepsExpansion_of_unchanged hs hover (by rw [hline]) (by rw [hline])

theorem hostCollect_keepsExpansion (hs : s.InExpansion) : KeepsExpansion s (hostCollect s) := by
  refine keepsExpansion_of_unchanged hs (hostCollect_hostSideOnly s).handedOver (hostCollect_seq s) ?_
  obtain ⟨-, h⟩ | ⟨r, -, h⟩ := hostCollect_cases s <;> simp [h]

/-- Settles O32: an unfinished expansion keeps the host's other words out, and each further move takes a byte
from one part of the plan to the next or leaves the plan alone. -/
theorem expansionKeepsItsBytesUnderEverySchedule :
    Obligations.ExpansionKeepsItsBytesUnderEverySchedule := by
  intro m s t hi hn hs hm hq
  change KeepsExpansion s t
  cases m with
  | issue w =>
    have hclosed : s.hostQueue ≠ [] := hq.resolve_right fun h => h.1 w rfl
    cases hn
    rw [hostIssue_of_closed (.inr hclosed)]
    exact keepsExpansion_self hs
  | issueText text =>
    have hclosed : s.hostQueue ≠ [] := hq.resolve_right fun h => h.2 text rfl
    cases (hostIssueText_of_closed (.inr hclosed) text).symm.trans hn
    exact keepsExpansion_self hs
  | issueNext =>
    cases hn
    exact hostIssueNext_keepsExpansion hi hs
  | collect =>
    cases hn
    exact hostCollect_keepsExpansion hs
  | snapshot =>
    cases hn
    exact keepsExpansion_self hs
  | reset u => exact absurd rfl (hm u)
  | sequencer => exact sequencerStep_keepsExpansion hs hn
  | txLoad | txShift | rxDeliver _ | rxOverrun => exact perform_line_keepsExpansion hs (by simp) hn

end Sys2Proof.Machine
end

section
/-! INIT again (40_configuration.md section 5): it forgets the prior state, it is idempotent, and the rate it
sets brackets the baud rate asked for (R135). -/

namespace Sys2Proof.Machine

variable {clock : Nat} {flush : Bool} {cfg : ConfigRecord} {s t : State}

/-! ### What a second INIT writes -/

/-- Settles O19: each owned field is read off a table at the record, and the flush leaves it. -/
theorem initForgetsThePriorState : Obligations.InitForgetsThePriorState := by
  intro cfg s s' t t' hb hn hn'
  cases (exec_uinit_pos hb s).symm.trans hn
  cases (exec_uinit_pos hb s').symm.trans hn'
  simp

/-- The field writes of INIT give the owned fields their values and leave every other field; the baud register,
written in two parts, ends at its value whatever it held (40_configuration.md R138, R139). -/
theorem initFields_eq (clock : Nat) (cfg : ConfigRecord) (s : State) :
    initFields clock cfg s = { s with
      ursel := false, ubrr := initUbrr clock cfg,
      umsel := (modeBits cfg.mode).1, u2x := (modeBits cfg.mode).2,
      txen := (duplexBits cfg.duplex).1, rxen := (duplexBits cfg.duplex).2,
      ucsz2 := (sizeBits cfg.size).1, ucsz := (sizeBits cfg.size).2,
      upm := parityBits cfg.parity, usbs := stopBit cfg.stop, ucpol := polBit cfg.pol,
      rxcie := (irqBits cfg.irq).1, txcie := (irqBits cfg.irq).2.1, udrie := (irqBits cfg.irq).2.2 } := by
  rw [← initFields_ubrr clock cfg s]
  rfl

theorem initFields_initFields (clock : Nat) (cfg : ConfigRecord) (s : State) :
    initFields clock cfg (initFields clock cfg s) = initFields clock cfg s := by
  rw [initFields_eq, initFields_eq clock cfg s]

theorem initFields_replaceRx (clock : Nat) (cfg : ConfigRecord) (s : State) (r : List RxEntry) :
    initFields clock cfg (s.replaceRx r) = (initFields clock cfg s).replaceRx r := by
  unfold State.replaceRx
  rw [initFields_rxFifo]
  split <;> rfl

theorem initFields_flushIfDisabled (clock : Nat) (cfg : ConfigRecord) (b : Bool) (e : Bit) (s : State) :
    initFields clock cfg (flushIfDisabled b e (initFields clock cfg s)) =
      flushIfDisabled b e (initFields clock cfg s) := by
  unfold flushIfDisabled
  split
  next => rw [initFields_replaceRx, initFields_initFields]
  next => exact initFields_initFields clock cfg s

theorem initFields_setSeq (clock : Nat) (cfg : ConfigRecord) (s : State) (q : Seq) :
    initFields clock cfg (s.setSeq q) = (initFields clock cfg s).setSeq q := rfl

/-- A completed INIT leaves the fields as it would write them again. -/
theorem initFields_of_initWith (hb : cfg.baud ≠ 0) (hn : initWith clock flush cfg s = .next t) :
    initFields clock cfg t = t := by
  rw [initWith_pos hb] at hn
  cases hn
  rw [initFields_setSeq, initFields_flushIfDisabled]

theorem seq_of_initWith (hb : cfg.baud ≠ 0) (hn : initWith clock flush cfg s = .next t) :
    t.seq = .idle := by
  rw [initWith_pos hb] at hn
  cases hn
  rfl

/-- INIT over fields that stand as it would write them does nothing more: RXEN does not fall, so nothing is
flushed. -/
theorem initWith_initWith (hn : initWith clock flush cfg s = .next t) :
    initWith clock flush cfg t = .next t := by
  by_cases hb : cfg.baud = 0
  · rw [initWith_zero hb] at hn ⊢
    cases hn
    rfl
  · rw [initWith_pos hb, initFields_of_initWith hb hn, flushIfDisabled_eq_self (by simp),
      setSeq_self (seq_of_initWith hb hn)]

/-- Settles O20. -/
theorem initIsIdempotent : Obligations.InitIsIdempotent :=
  fun _ _ _ hn => initWith_initWith hn

/-! ### The rate (40_configuration.md R135) -/

theorem oversampled_of_initWith (hb : cfg.baud ≠ 0) (hn : initWith clock flush cfg s = .next t) :
    t.oversampled = oversampling cfg.mode := by
  rw [initWith_pos hb] at hn
  cases hn
  simp [State.oversampled, oversampling, modeBits_eq]

theorem ubrr_of_initWith (hb : cfg.baud ≠ 0) (hn : initWith clock flush cfg s = .next t) :
    t.ubrr = initUbrr clock cfg := by
  rw [initWith_pos hb] at hn
  cases hn
  simp

theorem oversampling_pos (mode : BitVec 4) : 0 < oversampling mode := by
  unfold oversampling
  split <;> decide

/-- A register that holds the baud divisor brackets the clock between two neighbouring rates. -/
theorem clock_bounds_of_baudDivisor {os baud ubrr : Nat} (hos : 0 < os) (hbaud : 0 < baud)
    (h : (ubrr : Int) = baudDivisor clock os baud) :
    baud * (os * (ubrr + 1)) ≤ clock ∧ clock < baud * (os * (ubrr + 2)) := by
  have hq : ubrr + 1 = clock / (os * baud) := by
    rw [baudDivisor, Nat.div_div_eq_div_mul] at h
    omega
  have regroup (n : Nat) : baud * (os * n) = os * baud * n := by ring
  rw [regroup, regroup, show ubrr + 2 = clock / (os * baud) + 1 by omega, hq]
  exact ⟨Nat.mul_div_le _ _, Nat.lt_mul_div_succ _ (Nat.mul_pos hos hbaud)⟩

/-- Settles O21: the register holds the divisor, whose floor divisions give the two bounds. -/
theorem initRateBracketsTheBaudRate : Obligations.InitRateBracketsTheBaudRate := by
  intro clock flush cfg s t hb hlow hhigh hn
  have hbaud : 0 < cfg.baud.toNat := Nat.pos_of_ne_zero fun h => hb (BitVec.eq_of_toNat_eq h)
  have hubrr : (t.ubrr.toNat : Int) = baudDivisor clock (oversampling cfg.mode) cfg.baud.toNat := by
    rw [ubrr_of_initWith hb hn]
    exact ubrrValue_of_fits ⟨hlow, hhigh⟩
  rw [oversampled_of_initWith hb hn]
  exact ⟨rfl, clock_bounds_of_baudDivisor (oversampling_pos _) hbaud hubrr⟩

end Sys2Proof.Machine
end

section
/-! What FE, PE and RXB8 read of an empty receive buffer (10_state.md R56; log 8): the one write that can
change the stored values is the removal of the last frame. -/

namespace Sys2Proof.Machine

variable {s t : State} {i : Instr} {m : Move}

/-- From `s` to `t` the three stored values stay as they are. -/
def KeepsEmptyViews (s t : State) : Prop :=
  t.emptyFe = s.emptyFe ∧ t.emptyPe = s.emptyPe ∧ t.emptyRxb8 = s.emptyRxb8

/-- From `s` to `t` the three stored values stay as they are, or a receive buffer that held a frame empties. -/
def KeepsEmptyViewsOrEmpties (s t : State) : Prop :=
  KeepsEmptyViews s t ∨ (s.rxFifo ≠ [] ∧ t.rxFifo = [])

theorem keepsEmptyViews_refl (s : State) : KeepsEmptyViews s s := ⟨rfl, rfl, rfl⟩

theorem HostSideOnly.keepsEmptyViews (h : HostSideOnly s t) : KeepsEmptyViews s t := by
  rw [h]
  exact keepsEmptyViews_refl s

theorem replaceRx_keepsEmptyViewsOrEmpties (s : State) (r : List RxEntry) :
    KeepsEmptyViewsOrEmpties s (s.replaceRx r) := by
  unfold State.replaceRx
  split
  next hs => exact .inr ⟨by simp [hs], rfl⟩
  next => exact .inl ⟨rfl, rfl, rfl⟩

theorem flushIfDisabled_keepsEmptyViewsOrEmpties (b : Bool) (e : Bit) (s : State) :
    KeepsEmptyViewsOrEmpties s (flushIfDisabled b e s) := by
  unfold flushIfDisabled
  split
  next => exact replaceRx_keepsEmptyViewsOrEmpties s []
  next => exact .inl (keepsEmptyViews_refl s)

/-- Only the flush of INIT and DISABLE and the read of a receive command write the receive buffer, and both
redraw the values as it empties. -/
theorem exec_keepsEmptyViewsOrEmpties (hn : exec i s = .next t) : KeepsEmptyViewsOrEmpties s t := by
  obtain ⟨cfg, -, ⟨-, rfl⟩ | ⟨-, rfl⟩⟩ | ⟨-, rfl⟩ | ⟨-, -, rfl⟩ | ⟨d, -, -, rfl⟩ | ⟨w, b, -, -, -, rfl⟩ |
    ⟨-, -, rfl⟩ | ⟨h, rest, r, -, -, -, rfl⟩ | ⟨x, -, rfl⟩ := exec_next hn
  · exact .inl ⟨rfl, rfl, rfl⟩
  · simpa [KeepsEmptyViewsOrEmpties, KeepsEmptyViews] using flushIfDisabled_keepsEmptyViewsOrEmpties
      Config.rxFlushOnDisable s.rxen (initFields Config.fClk cfg s)
  · exact flushIfDisabled_keepsEmptyViewsOrEmpties _ _ (s.setDuplex (false, false))
  · exact .inl (keepsEmptyViews_refl _)
  · exact .inl ⟨rfl, rfl, rfl⟩
  · exact .inl ⟨rfl, rfl, rfl⟩
  · exact .inl (keepsEmptyViews_refl _)
  · simpa [KeepsEmptyViewsOrEmpties, KeepsEmptyViews] using
      replaceRx_keepsEmptyViewsOrEmpties (s.setDor false) rest
  · exact .inl ⟨rfl, rfl, rfl⟩

/-- Settles O42: of the moves other than reset, only an execution writes the stored values. -/
theorem emptyViewsChangeOnlyAsTheBufferEmpties : Obligations.EmptyViewsChangeOnlyAsTheBufferEmpties := by
  intro m s t hn
  by_cases hm : ∃ u, m = .reset u
  · exact .inr (.inr hm)
  · obtain h | ⟨rfl, i, -, hx⟩ | ⟨f, b, rfl⟩ | ⟨-, f, -, rfl⟩ | ⟨es, rfl⟩ | ⟨-, -, -, rfl⟩ :=
      perform_writes hn fun u h => hm ⟨u, h⟩
    · exact .inl h.keepsEmptyViews
    · obtain h | ⟨hs, ht⟩ := exec_keepsEmptyViewsOrEmpties hx
      · exact .inl h
      · exact .inr (.inl ⟨rfl, hs, ht⟩)
    · exact .inl ⟨rfl, rfl, rfl⟩
    · exact .inl ⟨rfl, rfl, rfl⟩
    · exact .inl ⟨rfl, rfl, rfl⟩
    · exact .inl ⟨rfl, rfl, rfl⟩

end Sys2Proof.Machine
end
